-- ==== Sys2Proof/Word.lean ====
section
/-! DEFINITION. The word types of the block (spec/00_scope.md rules R3, R7; spec/10_state.md rules R21, R23, R26). -/

namespace Sys2Proof

/-- A byte: a general register, a timer, one memory cell (R21, R30, R36, R37). -/
abbrev Byte := BitVec 8

/-- A 16-bit word: an instruction, the pc, the index register, a stack entry (R3, R23, R26, R28). -/
abbrev Word := BitVec 16

/-- The number of a general register, V0..VF (R21). -/
abbrev Reg := Fin 16

/-- VF, the register that holds the flag (R22). -/
abbrev VF : Reg := 15

end Sys2Proof
end

