-- ==== Sys2Proof/Syntax.lean ====
section
/-! DEFINITION. The instructions: one constructor for each of the 35 rows of spec/opcode_table.json
(spec/30_encoding.md rules R80, R81, R85, R87). -/

namespace Sys2Proof

/-- The 35 instructions. `x` and `y` are register numbers, `nn` the low byte of the opcode, `nnn` its low 12 bits
already extended with zeros to 16 (`zext_16(NNN)`, R85), `n` the row count of a sprite. That `nnn` and `n` fit their
fields is `Instr.wellFormed`. `8XY6` and `8XYE` have no `y`: their Y nibble is no operand (R86, R87). -/
inductive Instr where
  /-- `0000` NOP (R111). -/
  | nop
  /-- `00E0` CLS (R191). -/
  | cls
  /-- `00EE` RET (R112). -/
  | ret
  /-- `1NNN` JP nnn (R113). -/
  | jp (nnn : Word)
  /-- `2NNN` CALL nnn (R114). -/
  | call (nnn : Word)
  /-- `3XNN` SE Vx, nn (R116). -/
  | seImm (x : Reg) (nn : Byte)
  /-- `4XNN` SNE Vx, nn (R117). -/
  | sneImm (x : Reg) (nn : Byte)
  /-- `5XY0` SE Vx, Vy (R118). -/
  | seReg (x y : Reg)
  /-- `6XNN` LD Vx, nn (R141). -/
  | ldImm (x : Reg) (nn : Byte)
  /-- `7XNN` ADD Vx, nn (R142). -/
  | addImm (x : Reg) (nn : Byte)
  /-- `8XY0` LD Vx, Vy (R143). -/
  | ldReg (x y : Reg)
  /-- `8XY1` OR Vx, Vy (R144). -/
  | orReg (x y : Reg)
  /-- `8XY2` AND Vx, Vy (R145). -/
  | andReg (x y : Reg)
  /-- `8XY3` XOR Vx, Vy (R146). -/
  | xorReg (x y : Reg)
  /-- `8XY4` ADD Vx, Vy (R147). -/
  | addReg (x y : Reg)
  /-- `8XY5` SUB Vx, Vy (R148). -/
  | subReg (x y : Reg)
  /-- `8XY6` SHR Vx (R149). -/
  | shr (x : Reg)
  /-- `8XY7` SUBN Vx, Vy (R150). -/
  | subn (x y : Reg)
  /-- `8XYE` SHL Vx (R151). -/
  | shl (x : Reg)
  /-- `9XY0` SNE Vx, Vy (R119). -/
  | sneReg (x y : Reg)
  /-- `ANNN` LD I, nnn (R171). -/
  | ldI (nnn : Word)
  /-- `BNNN` JP V0, nnn (R120). -/
  | jpV0 (nnn : Word)
  /-- `CXNN` RND Vx, nn (R155). -/
  | rnd (x : Reg) (nn : Byte)
  /-- `DXYN` DRW Vx, Vy, n (R196). -/
  | drw (x y : Reg) (n : Nat)
  /-- `EX9E` SKP Vx (R210). -/
  | skp (x : Reg)
  /-- `EXA1` SKNP Vx (R211). -/
  | sknp (x : Reg)
  /-- `FX07` LD Vx, DT (R212). -/
  | ldVxDT (x : Reg)
  /-- `FX0A` LD Vx, K (R213). -/
  | ldVxK (x : Reg)
  /-- `FX15` LD DT, Vx (R214). -/
  | ldDTVx (x : Reg)
  /-- `FX18` LD ST, Vx (R215). -/
  | ldSTVx (x : Reg)
  /-- `FX1E` ADD I, Vx (R172). -/
  | addI (x : Reg)
  /-- `FX29` LD F, Vx (R173). -/
  | ldF (x : Reg)
  /-- `FX33` LD B, Vx (R174). -/
  | ldB (x : Reg)
  /-- `FX55` LD [I], Vx (R175). -/
  | ldMemVx (x : Reg)
  /-- `FX65` LD Vx, [I] (R176). -/
  | ldVxMem (x : Reg)
  deriving DecidableEq, Repr

end Sys2Proof
end

