-- ==== Sys2Proof/WellFormed.lean ====
section
/-! DEFINITION. When an instruction's operands fit the fields of its word (spec/30_encoding.md rules R85, R93: "An
immediate that does not fit its field is an assembler error. There is no truncation."). Register numbers and 8-bit
immediates fit by their types. -/

namespace Sys2Proof

/-- A 12-bit address field: 0..4095 (R85). -/
abbrev fitsNNN (nnn : Word) : Bool := decide (nnn.toNat < 0x1000)

/-- A 4-bit row count: 0..15 (R85). -/
abbrev fitsN (n : Nat) : Bool := decide (n < 16)

/-- Every operand fits its field. -/
def Instr.wellFormed (i : Instr) : Bool :=
  match i with
  | .nop => true
  | .cls => true
  | .ret => true
  | .jp nnn => fitsNNN nnn
  | .call nnn => fitsNNN nnn
  | .seImm _ _ => true
  | .sneImm _ _ => true
  | .seReg _ _ => true
  | .ldImm _ _ => true
  | .addImm _ _ => true
  | .ldReg _ _ => true
  | .orReg _ _ => true
  | .andReg _ _ => true
  | .xorReg _ _ => true
  | .addReg _ _ => true
  | .subReg _ _ => true
  | .shr _ => true
  | .subn _ _ => true
  | .shl _ => true
  | .sneReg _ _ => true
  | .ldI nnn => fitsNNN nnn
  | .jpV0 nnn => fitsNNN nnn
  | .rnd _ _ => true
  | .drw _ _ n => fitsN n
  | .skp _ => true
  | .sknp _ => true
  | .ldVxDT _ => true
  | .ldVxK _ => true
  | .ldDTVx _ => true
  | .ldSTVx _ => true
  | .addI _ => true
  | .ldF _ => true
  | .ldB _ => true
  | .ldMemVx _ => true
  | .ldVxMem _ => true

end Sys2Proof
end

