-- ==== Sys2Proof/Decode.lean ====
section
/-! DEFINITION. Decoding and encoding (spec/30_encoding.md rules R80 to R90). Every instruction is one 16-bit word of
two big-endian bytes; decoding is a total function of that word alone, and a word outside the table is rejected under the
name of its group in rule R89. -/

namespace Sys2Proof

/-! ### Bytes and words -/

/-- The big-endian word of two bytes, the first one from the lower address (R53, R83). -/
def wordOfBytes (hi lo : Byte) : Word := BitVec.ofNat 16 (hi.toNat * 256 + lo.toNat)

/-- The byte of a word that lies at the lower address (R53). -/
def hiByte (w : Word) : Byte := BitVec.ofNat 8 (w.toNat / 256)

/-- The byte of a word that lies at the higher address (R53). -/
def loByte (w : Word) : Byte := BitVec.ofNat 8 (w.toNat % 256)

/-! ### The fields of a word (R9, R81, R85) -/

/-- `d1 = op[15:12]`. -/
def opD1 (w : Word) : Nat := w.toNat / 4096

/-- `X = d2 = op[11:8]`. -/
def opX (w : Word) : Reg := ⟨w.toNat / 256 % 16, Nat.mod_lt _ (by decide)⟩

/-- `Y = d3 = op[7:4]`. -/
def opY (w : Word) : Reg := ⟨w.toNat / 16 % 16, Nat.mod_lt _ (by decide)⟩

/-- `N = d4 = op[3:0]`. -/
def opN (w : Word) : Nat := w.toNat % 16

/-- The low byte `op[7:0]` as a number: `NN`, or the sub-opcode of the `x` format. -/
def opLow (w : Word) : Nat := w.toNat % 256

/-- `NN = op[7:0]`. -/
def opNN (w : Word) : Byte := BitVec.ofNat 8 (opLow w)

/-- `zext_16(NNN)`, `NNN = op[11:0]`. -/
def opNNN (w : Word) : Word := BitVec.ofNat 16 (w.toNat % 4096)

/-! ### Decoding -/

/-- The six groups of illegal words of rule R89. -/
inductive IllegalGroup where
  /-- `0nnn` other than 0000, 00E0 and 00EE. -/
  | group0nnn
  /-- `5XYn` with n not 0. -/
  | group5xyn
  /-- `8XYn` with n one of 8 to D and F. -/
  | group8xyn
  /-- `9XYn` with n not 0. -/
  | group9xyn
  /-- `EXnn` with nn neither 9E nor A1. -/
  | groupExnn
  /-- `FXnn` with nn none of the nine sub-opcodes. -/
  | groupFxnn
  deriving DecidableEq, Repr

/-- Why a word or a byte sequence is no instruction. -/
inductive DecodeError where
  /-- Fewer than the two bytes an instruction takes (R80). -/
  | truncated
  /-- An illegal word, with its group (R88, R89). -/
  | illegal (group : IllegalGroup) (op : Word)
  deriving DecidableEq, Repr

/-- `Decode(op)` of rule R87. The last arm of the outer match is `d1 = 0xF`: a 16-bit word has no other. -/
def decodeWord (w : Word) : Except DecodeError Instr :=
  match opD1 w with
  | 0x0 =>
    match w.toNat with
    | 0x0000 => .ok .nop
    | 0x00E0 => .ok .cls
    | 0x00EE => .ok .ret
    | _ => .error (.illegal .group0nnn w)
  | 0x1 => .ok (.jp (opNNN w))
  | 0x2 => .ok (.call (opNNN w))
  | 0x3 => .ok (.seImm (opX w) (opNN w))
  | 0x4 => .ok (.sneImm (opX w) (opNN w))
  | 0x5 =>
    match opN w with
    | 0x0 => .ok (.seReg (opX w) (opY w))
    | _ => .error (.illegal .group5xyn w)
  | 0x6 => .ok (.ldImm (opX w) (opNN w))
  | 0x7 => .ok (.addImm (opX w) (opNN w))
  | 0x8 =>
    match opN w with
    | 0x0 => .ok (.ldReg (opX w) (opY w))
    | 0x1 => .ok (.orReg (opX w) (opY w))
    | 0x2 => .ok (.andReg (opX w) (opY w))
    | 0x3 => .ok (.xorReg (opX w) (opY w))
    | 0x4 => .ok (.addReg (opX w) (opY w))
    | 0x5 => .ok (.subReg (opX w) (opY w))
    | 0x6 => .ok (.shr (opX w))
    | 0x7 => .ok (.subn (opX w) (opY w))
    | 0xE => .ok (.shl (opX w))
    | _ => .error (.illegal .group8xyn w)
  | 0x9 =>
    match opN w with
    | 0x0 => .ok (.sneReg (opX w) (opY w))
    | _ => .error (.illegal .group9xyn w)
  | 0xA => .ok (.ldI (opNNN w))
  | 0xB => .ok (.jpV0 (opNNN w))
  | 0xC => .ok (.rnd (opX w) (opNN w))
  | 0xD => .ok (.drw (opX w) (opY w) (opN w))
  | 0xE =>
    match opLow w with
    | 0x9E => .ok (.skp (opX w))
    | 0xA1 => .ok (.sknp (opX w))
    | _ => .error (.illegal .groupExnn w)
  | _ =>
    match opLow w with
    | 0x07 => .ok (.ldVxDT (opX w))
    | 0x0A => .ok (.ldVxK (opX w))
    | 0x15 => .ok (.ldDTVx (opX w))
    | 0x18 => .ok (.ldSTVx (opX w))
    | 0x1E => .ok (.addI (opX w))
    | 0x29 => .ok (.ldF (opX w))
    | 0x33 => .ok (.ldB (opX w))
    | 0x55 => .ok (.ldMemVx (opX w))
    | 0x65 => .ok (.ldVxMem (opX w))
    | _ => .error (.illegal .groupFxnn w)

/-- Decoding from a byte sequence: the instruction of its first two bytes and the bytes after them (R80: "it is always
2 bytes"). -/
def decodeBytes (bs : List Byte) : Except DecodeError (Instr × List Byte) :=
  match bs with
  | hi :: lo :: rest =>
    match decodeWord (wordOfBytes hi lo) with
    | .ok i => .ok (i, rest)
    | .error e => .error e
  | _ => .error .truncated

/-! ### Encoding (the **Encoding** line of each instruction's rule; the formats are those of rule R81) -/

/-- Format `nnn`: `op << 12 | NNN`. -/
def encNNN (op : Nat) (nnn : Word) : Word := BitVec.ofNat 16 (op * 4096 + nnn.toNat % 4096)

/-- Format `xnn`: `op << 12 | X << 8 | NN`. -/
def encXNN (op : Nat) (x : Reg) (nn : Byte) : Word := BitVec.ofNat 16 (op * 4096 + x.val * 256 + nn.toNat)

/-- Formats `xy` and `xyn`: `op << 12 | X << 8 | Y << 4 | n`. -/
def encXYN (op : Nat) (x y : Reg) (n : Nat) : Word :=
  BitVec.ofNat 16 (op * 4096 + x.val * 256 + y.val * 16 + n % 16)

/-- Format `x`: `op << 12 | X << 8 | sub`. -/
def encX (op : Nat) (x : Reg) (sub : Nat) : Word := BitVec.ofNat 16 (op * 4096 + x.val * 256 + sub)

/-- The word of an instruction. `SHR Vx` and `SHL Vx` assemble with a Y nibble of 0 (R93). -/
def encode (i : Instr) : Word :=
  match i with
  | .nop => 0x0000
  | .cls => 0x00E0
  | .ret => 0x00EE
  | .jp nnn => encNNN 0x1 nnn
  | .call nnn => encNNN 0x2 nnn
  | .seImm x nn => encXNN 0x3 x nn
  | .sneImm x nn => encXNN 0x4 x nn
  | .seReg x y => encXYN 0x5 x y 0x0
  | .ldImm x nn => encXNN 0x6 x nn
  | .addImm x nn => encXNN 0x7 x nn
  | .ldReg x y => encXYN 0x8 x y 0x0
  | .orReg x y => encXYN 0x8 x y 0x1
  | .andReg x y => encXYN 0x8 x y 0x2
  | .xorReg x y => encXYN 0x8 x y 0x3
  | .addReg x y => encXYN 0x8 x y 0x4
  | .subReg x y => encXYN 0x8 x y 0x5
  | .shr x => encXYN 0x8 x 0 0x6
  | .subn x y => encXYN 0x8 x y 0x7
  | .shl x => encXYN 0x8 x 0 0xE
  | .sneReg x y => encXYN 0x9 x y 0x0
  | .ldI nnn => encNNN 0xA nnn
  | .jpV0 nnn => encNNN 0xB nnn
  | .rnd x nn => encXNN 0xC x nn
  | .drw x y n => encXYN 0xD x y n
  | .skp x => encX 0xE x 0x9E
  | .sknp x => encX 0xE x 0xA1
  | .ldVxDT x => encX 0xF x 0x07
  | .ldVxK x => encX 0xF x 0x0A
  | .ldDTVx x => encX 0xF x 0x15
  | .ldSTVx x => encX 0xF x 0x18
  | .addI x => encX 0xF x 0x1E
  | .ldF x => encX 0xF x 0x29
  | .ldB x => encX 0xF x 0x33
  | .ldMemVx x => encX 0xF x 0x55
  | .ldVxMem x => encX 0xF x 0x65

/-- The bytes of an instruction as memory holds them, the first at the lower address (R53, R80). -/
def encodeBytes (i : Instr) : List Byte := [hiByte (encode i), loByte (encode i)]

/-! ### The host's numbering of an instruction's bits -/

/-- The word that the low `nbits` bits of `w` stand for: an instruction is one word, and a bit above `nbits` is 0. -/
def tableWord (nbits w : Nat) : Word := BitVec.ofNat 16 (w % 2 ^ nbits)

/-- The instruction the decoder reads from the bytes of that word, laid out as memory holds them. -/
def decodeTableWord (nbits w : Nat) : Option Instr :=
  match decodeBytes [hiByte (tableWord nbits w), loByte (tableWord nbits w)] with
  | .ok (i, _) => some i
  | .error _ => none

end Sys2Proof
end

