-- ==== Sys2Proof/Config.lean ====
section
/-! DEFINITION. What one implementation of the block fixes (spec/00_scope.md rule R7), and the one value the
spec leaves free: the random byte of a step. -/

namespace Sys2Proof.Config

/-- `MEM_SIZE` (R7, R30): memory is the 4096 bytes at addresses 0..4095. -/
abbrev memSize : Nat := 4096

/-- `START` (R7, R52, R273): where a program is loaded and where the first step after reset fetches. -/
abbrev start : Nat := 0x200

/-- `GLYPH_BYTES` (R7, R31): bytes of one hexadecimal glyph. -/
abbrev glyphBytes : Nat := 5

/-- `DISP_W` (R7, R34): columns of the display. -/
abbrev dispW : Nat := 64

/-- `DISP_H` (R7, R34): rows of the display. -/
abbrev dispH : Nat := 32

/-- The random byte `r` that a step's `CXNN` uses when the host has put none on the input (R13, D17: "No law
constrains `r`"). A FREE VALUE: it has no body, so nothing can be proved of its values; the argument counts the
`CXNN` executed so far, so that two of them may see any two values (R155). Log entry 2. -/
opaque randomByte : Nat → BitVec 8

end Sys2Proof.Config
end

