-- ==== Sys2Proof/Machine/State.lean ====
section
/-! DEFINITION. The state of the block (spec/10_state.md rules R20 to R42; reset values spec/70_reset_and_hazards.md
rule R270), the fault record (spec/60_exceptions.md rules R231, R232), and the reasons a step of the model stops. -/

namespace Sys2Proof.Machine

/-- Memory: (address, byte) pairs in the canonical form `Memory.wf` (R30). -/
abbrev Memory := List Host.Cell

/-- The display: 32 rows of 64 one-bit cells, row 0 first, column x in bit x of its row (R34). The cell at linear index
`x + 64*y` is `Display.at d (x + 64*y)`. Log entry 5. -/
abbrev Display := Vector (BitVec 64) 32

/-- The fault causes (R231). -/
inductive FaultCause where
  /-- Code 1: decode found no instruction. -/
  | unimplementedOpcode
  /-- Code 2: the pc is 4095 or more at the start of the step. -/
  | fetchOutOfBounds
  /-- Code 3: the byte range of `DXYN`, `FX33`, `FX55` or `FX65` reaches past 4095. -/
  | memoryOutOfBounds
  /-- Code 4: `2NNN` with 16 calls pending. -/
  | stackOverflow
  /-- Code 5: `00EE` with no call pending. -/
  | stackUnderflow
  /-- Code 6: `EX9E` or `EXA1` with V[X] of 16 or more. -/
  | keyIndexOutOfRange
  deriving DecidableEq, Repr

/-- The `info` part of a fault record, by cause (R231). -/
inductive FaultInfo where
  /-- STACK_OVERFLOW, STACK_UNDERFLOW: none. -/
  | none
  /-- UNIMPLEMENTED_OPCODE: `op`. -/
  | opcode (op : Word)
  /-- FETCH_OUT_OF_BOUNDS: `pc`. -/
  | address (pc : Word)
  /-- MEMORY_OUT_OF_BOUNDS: `(I, length)`. -/
  | range (base : Word) (length : Nat)
  /-- KEY_INDEX_OUT_OF_RANGE: `V[X]`. -/
  | key (v : Byte)
  deriving DecidableEq, Repr

/-- The fault record `(cause, a, op, info)` (R232). -/
structure FaultRecord where
  cause : FaultCause
  /-- The address of the faulting instruction. -/
  addr : Word
  /-- The fetched word, or `none` for FETCH_OUT_OF_BOUNDS. -/
  op : Option Word
  info : FaultInfo
  deriving DecidableEq, Repr

/-- The state: the eleven components of rule R20, then two fields of the model's own for the step's random input. -/
structure State where
  /-- The general registers V0..VF (R21). -/
  V : Vector Byte 16
  /-- The index register (R26). -/
  I : Word
  /-- The program counter (R23). -/
  pc : Word
  /-- The call stack's entries, the stale ones at and above `sp` among them (R28, R29). -/
  stack : Vector Word 16
  /-- How many entries are pushed, 0..16 (R28). -/
  sp : Fin 17
  /-- The 4096 bytes of memory (R30). -/
  mem : Memory
  /-- The display buffer (R34). -/
  disp : Display
  /-- The key-down states (R35). -/
  keys : Vector Bool 16
  /-- The delay timer (R36). -/
  DT : Byte
  /-- The sound timer (R37). -/
  ST : Byte
  /-- The fault latch (R38). -/
  fault : Option FaultRecord
  /-- The model's own: the random byte `r` the host has put on the step's input (R13, R91), or `none`, and then the
  byte is the free value `Config.randomByte draws`. Log entry 2. -/
  randomIn : Option Byte
  /-- The model's own: how many `CXNN` have run, the argument of the free value. Log entry 2. -/
  draws : Nat
  deriving DecidableEq, Repr

/-- Why a step gives no next state. A fault of the ISA is not one of these: the step that raises it has a next state, in
which the latch holds its record (R234). -/
inductive Fault where
  /-- Raised by `step` alone, in a state whose latch holds `r`: "`step(r)` changes no state and returns the latched
  record", "no step can follow it" (R235). Safe: nothing runs where the block does not run. -/
  | latched (r : FaultRecord)
  deriving DecidableEq, Repr

/-- Why the model gives an instruction no meaning. -/
inductive Refusal where
  /-- The instruction of that mnemonic has no meaning yet; raised by `exec`'s arms alone. Safe: the model stops where the
  block goes on. No arm raises it. -/
  | notModelled (mnemonic : String)
  deriving DecidableEq, Repr

/-- The state right after `new()` or `reset()` (R270, R271). Memory lists nothing: every byte reads as
`Memory.unlisted`, which is the font below 80 and 0 above (R31). The two fields of the model's own are a
DESIGN CHOICE: no byte on the random input, no draw made (log entry 2). -/
def State.reset : State where
  V := Vector.replicate 16 0
  I := 0x0000
  pc := 0x0200
  stack := Vector.replicate 16 0x0000
  sp := 0
  mem := []
  disp := Vector.replicate 32 0
  keys := Vector.replicate 16 false
  DT := 0
  ST := 0
  fault := none
  randomIn := none
  draws := 0

end Sys2Proof.Machine
end

