-- ==== Sys2Proof/Machine/Font.lean ====
section
/-! DEFINITION. The reset contents of memory: the font table and zeros (spec/10_state.md rules R31 to R33,
spec/70_reset_and_hazards.md rule R270). -/

namespace Sys2Proof.Machine

/-- `FONT`, rows of digits 0 to 7: the spec's default bytes (R33: "[from general knowledge, not in source]").
PRESUMED: log entry 1. -/
def fontDigits0to7 : List Byte :=
  [0xF0, 0x90, 0x90, 0x90, 0xF0] ++ [0x20, 0x60, 0x20, 0x20, 0x70] ++
  [0xF0, 0x10, 0xF0, 0x80, 0xF0] ++ [0xF0, 0x10, 0xF0, 0x10, 0xF0] ++
  [0x90, 0x90, 0xF0, 0x10, 0x10] ++ [0xF0, 0x80, 0xF0, 0x10, 0xF0] ++
  [0xF0, 0x80, 0xF0, 0x90, 0xF0] ++ [0xF0, 0x10, 0x20, 0x40, 0x40]

/-- `FONT`, rows of digits 8 to F (R33). PRESUMED: log entry 1. -/
def fontDigits8toF : List Byte :=
  [0xF0, 0x90, 0xF0, 0x90, 0xF0] ++ [0xF0, 0x90, 0xF0, 0x10, 0xF0] ++
  [0xF0, 0x90, 0xF0, 0x90, 0x90] ++ [0xE0, 0x90, 0xE0, 0x90, 0xE0] ++
  [0xF0, 0x80, 0x80, 0x80, 0xF0] ++ [0xE0, 0x90, 0x90, 0x90, 0xE0] ++
  [0xF0, 0x80, 0xF0, 0x80, 0xF0] ++ [0xF0, 0x80, 0xF0, 0x80, 0x80]

/-- The font table `FONT`: 16 glyphs of 5 bytes, glyph d at `5*d`, its top row first (R31). -/
def font : List Byte := fontDigits0to7 ++ fontDigits8toF

/-- What an address that memory does not list reads as: its byte after reset, `FONT` at 0..79 and 0 above (R31, R270). -/
def Memory.unlisted (a : Nat) : Byte := font.getD a 0

end Sys2Proof.Machine
end

