-- ==== Sys2Proof/Machine/Ops.lean ====
section
/-! DEFINITION. The named operations on the state: memory, registers, the call stack, display cells, keys, the random
input, and the taking of a fault. Every instruction reaches the state through these. -/

namespace Sys2Proof.Machine

/-! ### Memory (spec/20_memory.md) -/

/-- The byte at an address (R30, R60): the listed one, or else the address's reset byte. -/
def Memory.read (m : Memory) (a : Nat) : Byte :=
  match m with
  | [] => Memory.unlisted a
  | (b, v) :: rest => if a = b then v else Memory.read rest a

/-- The memory whose first cell is (a, v) and whose others are `rest`, a cell of the reset value being left out. -/
def Memory.cons (a : Nat) (v : Byte) (rest : Memory) : Memory :=
  if v = Memory.unlisted a then rest else (a, v) :: rest

/-- Write one byte (R12 `MemWrite` with n = 1), keeping the canonical form. -/
def Memory.write (m : Memory) (a : Nat) (v : Byte) : Memory :=
  match m with
  | [] => Memory.cons a v []
  | (b, w) :: rest =>
    if a < b then Memory.cons a v ((b, w) :: rest)
    else if a = b then Memory.cons a v rest
    else (b, w) :: Memory.write rest a v

/-- Every address in `m` is at least `lo` and below `MEM_SIZE`, they rise strictly, and no cell holds its reset byte. -/
def Memory.wfFrom (lo : Nat) (m : Memory) : Bool :=
  match m with
  | [] => true
  | (a, v) :: rest =>
    decide (lo ≤ a) && decide (a < Config.memSize) && decide (v ≠ Memory.unlisted a) && Memory.wfFrom (a + 1) rest

/-- The canonical form of memory: equal memories are equal data. -/
def Memory.wf (m : Memory) : Bool := Memory.wfFrom 0 m

/-- The `n` bytes from address `a` up, the lowest first. -/
def Memory.readBytes (m : Memory) (a n : Nat) : List Byte :=
  match n with
  | 0 => []
  | k + 1 => Memory.read m a :: Memory.readBytes m (a + 1) k

/-- Write bytes from address `a` up in ascending order (R54, R59). -/
def Memory.writeBytes (m : Memory) (a : Nat) (bs : List Byte) : Memory :=
  match bs with
  | [] => m
  | b :: rest => Memory.writeBytes (Memory.write m a b) (a + 1) rest

/-- An access of `n` bytes from `a` is legal if and only if `a + n <= 4096`, over unbounded integers (R56). -/
def inBounds (a n : Nat) : Bool := decide (a + n ≤ Config.memSize)

/-! ### Registers (spec/10_state.md) -/

/-- `V[x]` (R21). -/
def State.getV (s : State) (x : Reg) : Byte := s.V[x.val]

/-- `V[x] <- v` (R21). -/
def State.setV (s : State) (x : Reg) (v : Byte) : State := { s with V := s.V.set x.val v }

/-- `pc <- v` (R23). -/
def State.setPC (s : State) (v : Word) : State := { s with pc := v }

/-- `I <- v` (R26). -/
def State.setI (s : State) (v : Word) : State := { s with I := v }

/-- Memory as a whole replaced. -/
def State.setMem (s : State) (m : Memory) : State := { s with mem := m }

/-- The display as a whole replaced. -/
def State.setDisp (s : State) (d : Display) : State := { s with disp := d }

/-- `DT <- v` (R36). -/
def State.setDT (s : State) (v : Byte) : State := { s with DT := v }

/-- `ST <- v` (R37). -/
def State.setST (s : State) (v : Byte) : State := { s with ST := v }

/-- All the register numbers, ascending. -/
def allRegs : List Reg := [0, 1, 2, 3, 4, 5, 6, 7, 8, 9, 10, 11, 12, 13, 14, 15]

/-- V0..VX, the registers a block transfer reaches, ascending and X among them (R59, R175, R176). -/
def blockRegs (x : Reg) : List Reg := allRegs.filter (fun k => decide (k.val ≤ x.val))

/-- Load one register after another from the bytes from address `a` up (R59). -/
def State.loadRegs (s : State) (ks : List Reg) (a : Nat) : State :=
  match ks with
  | [] => s
  | k :: rest => State.loadRegs (s.setV k (s.mem.read a)) rest (a + 1)

/-! ### Call stack (R28, R29) -/

/-- The entries of the call stack as a whole replaced. -/
def State.setStack (s : State) (st : Vector Word 16) : State := { s with stack := st }

/-- `sp <- n`. -/
def State.setSP (s : State) (n : Fin 17) : State := { s with sp := n }

/-- Push `v`: `stack[sp] <- v; sp <- sp + 1`, legal only when `sp < 16`; `none` when it is not. -/
def State.push (s : State) (v : Word) : Option State :=
  if h : s.sp.val < 16 then
    some ((s.setStack (s.stack.set s.sp.val v)).setSP ⟨s.sp.val + 1, by omega⟩)
  else none

/-- Pop: `sp <- sp - 1; value = stack[sp]`, the entry staying where it is; legal only when `sp > 0`, `none` otherwise. -/
def State.pop (s : State) : Option (Word × State) :=
  if h : 0 < s.sp.val then
    some (s.stack[s.sp.val - 1]'(by have := s.sp.isLt; omega), s.setSP ⟨s.sp.val - 1, by have := s.sp.isLt; omega⟩)
  else none

/-! ### Display cells (R34) -/

/-- The cell at column x and row y; outside the grid there is none, and this says off. -/
def Display.cell (d : Display) (x y : Nat) : Bool :=
  if h : y < 32 then d[y].getLsbD x else false

/-- `disp[k]`, by the linear index `k = x + 64*y`. -/
def Display.at (d : Display) (k : Nat) : Bool := Display.cell d (k % 64) (k / 64)

/-- Invert the cell at column x and row y (R194). -/
def Display.invert (d : Display) (x y : Nat) : Display :=
  if h : y < 32 then d.set y (d[y] ^^^ (1#64 <<< x)) else d

/-- Every cell off (R191, R270). -/
def Display.clear : Display := Vector.replicate 32 0

/-! ### Keys (R35) -/

/-- `keys[k]`. -/
def State.keyDown (s : State) (k : Fin 16) : Bool := s.keys[k.val]

/-- `keys[k] <- down`. -/
def State.setKey (s : State) (k : Fin 16) (down : Bool) : State := { s with keys := s.keys.set k.val down }

/-- The lowest-numbered key that is down, if one is (R213, D8). -/
def State.lowestKeyDown (s : State) : Option (Fin 16) := allRegs.find? (fun k => s.keyDown k)

/-! ### The random input of the step (R13, R155) -/

/-- The step's random byte `r`: what the host put on the input, or else the free value. Log entry 2. -/
def State.randomByte (s : State) : Byte := s.randomIn.getD (Config.randomByte s.draws)

/-- After a `CXNN` has used it, the byte is gone: the next one sees another (R155: "Each step takes a fresh `r`"). -/
def State.useRandom (s : State) : State := { s with randomIn := none, draws := s.draws + 1 }

/-! ### Taking a fault (spec/60_exceptions.md rules R232, R234) -/

/-- The code of a cause (R231). -/
def FaultCause.code (c : FaultCause) : Nat :=
  match c with
  | .unimplementedOpcode => 1
  | .fetchOutOfBounds => 2
  | .memoryOutOfBounds => 3
  | .stackOverflow => 4
  | .stackUnderflow => 5
  | .keyIndexOutOfRange => 6

/-- Fault entry: every write of the step is discarded, so the pc is `a` again, and the latch takes the record. The checks
stand before the writes (R234), so the fetch's advance of the pc is the only write there is to discard. -/
def State.takeFault (s : State) (cause : FaultCause) (a : Word) (op : Option Word) (info : FaultInfo) : State :=
  { s with pc := a, fault := some { cause := cause, addr := a, op := op, info := info } }

/-- `raise Fault(cause, info)` in the execute stage of the instruction `i`, where `pc = a + 2` (R84). The fetched word is
that of `i`: no instruction that can fault has a bit that decoding drops (log entry 3). -/
def raiseFault (cause : FaultCause) (info : FaultInfo) (i : Instr) (s : State) : Host.Outcome State Fault Refusal :=
  .next (s.takeFault cause (s.pc - 2) (some (encode i)) info)

/-- Return from a fault: there is none (R236). Only `reset()` and `new()` clear the latch, whatever the state was (R256,
R271, R272). -/
def State.afterReset (_s : State) : State := State.reset

end Sys2Proof.Machine
end

