-- ==== Sys2Proof/Machine/Operands.lean ====
section
/-! DEFINITION. Operand forms: the index-relative byte range, the glyph address, the jump offset, decimal digits, the
skip, and the sprite's coordinate transform. -/

namespace Sys2Proof.Machine

/-- The base of a data access: `I`, over unbounded integers; byte k of the range is at `I + k` (R170). -/
def State.base (s : State) : Nat := s.I.toNat

/-- `zext_16(V)`: a register's value as a 16-bit number (R10). -/
def zextByte (v : Byte) : Word := BitVec.ofNat 16 v.toNat

/-- The address of the glyph of `v`: `zext_16(v) * 5`, not masked (R173). -/
def glyphAddress (v : Byte) : Word := BitVec.ofNat 16 (v.toNat * Config.glyphBytes)

/-- The target of `BNNN`: `zext_16(V[0]) + zext_16(NNN)`, not masked (R120). -/
def offsetTarget (v0 : Byte) (nnn : Word) : Word := zextByte v0 + nnn

/-- The hundreds, tens and ones digits of a byte, most significant first (R174). -/
def decimalDigits (v : Byte) : List Byte :=
  [BitVec.ofNat 8 (v.toNat / 100), BitVec.ofNat 8 (v.toNat / 10 % 10), BitVec.ofNat 8 (v.toNat % 10)]

/-- The skip (R115): the pc, which is `a + 2`, advances by 2 more when the condition holds. -/
def State.skipIf (s : State) (c : Bool) : State := if c then s.setPC (s.pc + 2) else s

/-- The column a sprite's column c falls on: `(vx + c) mod 64` (R192). -/
def pixelX (vx c : Nat) : Nat := (vx + c) % Config.dispW

/-- The row a sprite's row j falls on: `(vy + j) mod 32` (R192). -/
def pixelY (vy j : Nat) : Nat := (vy + j) % Config.dispH

/-- Column c of a sprite row is bit `7 - c` of its byte (R193). -/
def spriteBit (row : Byte) (c : Nat) : Bool := row.getLsbD (7 - c)

end Sys2Proof.Machine
end

