-- ==== Sys2Proof/Machine/Flags.lean ====
section
/-! DEFINITION. The flag VF (spec/10_state.md rules R22, R27): its values by instruction (spec/42_alu.md rule R153) and the
order in which result and flag are written (R140). -/

namespace Sys2Proof.Machine

/-- `bool(c)` as the byte a flag write stores (R10). -/
def flagOf (c : Bool) : Byte := if c then 1 else 0

/-- Carry out of an addition: `vx + vy >= 256` (R147). -/
def carryOut (vx vy : Byte) : Bool := decide (256 ≤ vx.toNat + vy.toNat)

/-- NOT borrow of `a - b`: `a >= b` (R148, R150). -/
def notBorrow (a b : Byte) : Bool := decide (b.toNat ≤ a.toNat)

/-- The bit a right shift drops: bit 0 (R149). -/
def droppedLow (v : Byte) : Bool := v.getLsbD 0

/-- The bit a left shift drops: bit 7 (R151). -/
def droppedHigh (v : Byte) : Bool := v.getLsbD 7

/-- Write the flag to VF. -/
def State.setFlag (s : State) (c : Bool) : State := s.setV VF (flagOf c)

/-- The result goes to `V[x]` first and the flag to VF last, so that the flag stands when `x` is VF (R140). -/
def State.setResultThenFlag (s : State) (x : Reg) (res : Byte) (c : Bool) : State := (s.setV x res).setFlag c

end Sys2Proof.Machine
end

