-- ==== Sys2Proof/Machine/Control.lean ====
section
/-! DEFINITION. Control flow (spec/41_control_flow.md rules R110 to R121). On entry `pc = a + 2` (R84). -/

namespace Sys2Proof.Machine

/-- `NOP` (R111): nothing beyond the fetch. -/
def execNop (s : State) : Host.Outcome State Fault Refusal := .next s

/-- `RET` (R112): pop the pc; STACK_UNDERFLOW when no call is pending. -/
def execRet (s : State) : Host.Outcome State Fault Refusal :=
  match s.pop with
  | some (v, s') => .next (s'.setPC v)
  | none => raiseFault .stackUnderflow .none .ret s

/-- `JP nnn` (R113). -/
def execJp (nnn : Word) (s : State) : Host.Outcome State Fault Refusal := .next (s.setPC nnn)

/-- `CALL nnn` (R114): push the pc, which is the return address `a + 2`; STACK_OVERFLOW when 16 calls are pending. -/
def execCall (nnn : Word) (s : State) : Host.Outcome State Fault Refusal :=
  match s.push s.pc with
  | some s' => .next (s'.setPC nnn)
  | none => raiseFault .stackOverflow .none (.call nnn) s

/-- `SE Vx, nn` (R116). -/
def execSeImm (x : Reg) (nn : Byte) (s : State) : Host.Outcome State Fault Refusal :=
  .next (s.skipIf (s.getV x == nn))

/-- `SNE Vx, nn` (R117). -/
def execSneImm (x : Reg) (nn : Byte) (s : State) : Host.Outcome State Fault Refusal :=
  .next (s.skipIf (s.getV x != nn))

/-- `SE Vx, Vy` (R118). -/
def execSeReg (x y : Reg) (s : State) : Host.Outcome State Fault Refusal :=
  .next (s.skipIf (s.getV x == s.getV y))

/-- `SNE Vx, Vy` (R119). -/
def execSneReg (x y : Reg) (s : State) : Host.Outcome State Fault Refusal :=
  .next (s.skipIf (s.getV x != s.getV y))

/-- `JP V0, nnn` (R120). -/
def execJpV0 (nnn : Word) (s : State) : Host.Outcome State Fault Refusal :=
  .next (s.setPC (offsetTarget (s.getV 0) nnn))

end Sys2Proof.Machine
end

