-- ==== Sys2Proof/Machine/Index.lean ====
section
/-! DEFINITION. The index register and memory transfers (spec/43_index_memory.md rules R170 to R176). No access changes
`I`, and each range is checked whole before anything is written (R58, R170). -/

namespace Sys2Proof.Machine

/-- `LD I, nnn` (R171). -/
def execLdI (nnn : Word) (s : State) : Host.Outcome State Fault Refusal := .next (s.setI nnn)

/-- `ADD I, Vx` (R172): modulo 65536, no flag, no bounds check. -/
def execAddI (x : Reg) (s : State) : Host.Outcome State Fault Refusal :=
  .next (s.setI (s.I + zextByte (s.getV x)))

/-- `LD F, Vx` (R173): `I <- V[X] * 5`. -/
def execLdF (x : Reg) (s : State) : Host.Outcome State Fault Refusal := .next (s.setI (glyphAddress (s.getV x)))

/-- `LD B, Vx` (R174): the decimal digits of V[X] at I, I+1, I+2. -/
def execLdB (x : Reg) (s : State) : Host.Outcome State Fault Refusal :=
  if inBounds s.base 3 then .next (s.setMem (s.mem.writeBytes s.base (decimalDigits (s.getV x))))
  else raiseFault .memoryOutOfBounds (.range s.I 3) (.ldB x) s

/-- `LD [I], Vx` (R175): V0..VX to memory from I up. -/
def execLdMemVx (x : Reg) (s : State) : Host.Outcome State Fault Refusal :=
  if inBounds s.base (x.val + 1) then .next (s.setMem (s.mem.writeBytes s.base ((blockRegs x).map s.getV)))
  else raiseFault .memoryOutOfBounds (.range s.I (x.val + 1)) (.ldMemVx x) s

/-- `LD Vx, [I]` (R176): V0..VX from memory from I up. -/
def execLdVxMem (x : Reg) (s : State) : Host.Outcome State Fault Refusal :=
  if inBounds s.base (x.val + 1) then .next (s.loadRegs (blockRegs x) s.base)
  else raiseFault .memoryOutOfBounds (.range s.I (x.val + 1)) (.ldVxMem x) s

end Sys2Proof.Machine
end

