-- ==== Sys2Proof/Machine/Input.lean ====
section
/-! DEFINITION. Keys and timers (spec/45_keys_timers.md rules R210 to R216). -/

namespace Sys2Proof.Machine

/-- The key that V[X] numbers, if it numbers one: 0..15 (R216). -/
def keyIndex (v : Byte) : Option (Fin 16) := if h : v.toNat < 16 then some ⟨v.toNat, h⟩ else none

/-- `SKP Vx` (R210): skip if the key numbered by V[X] is down; KEY_INDEX_OUT_OF_RANGE from 16 up. -/
def execSkp (x : Reg) (s : State) : Host.Outcome State Fault Refusal :=
  match keyIndex (s.getV x) with
  | some k => .next (s.skipIf (s.keyDown k))
  | none => raiseFault .keyIndexOutOfRange (.key (s.getV x)) (.skp x) s

/-- `SKNP Vx` (R211): skip if that key is up. -/
def execSknp (x : Reg) (s : State) : Host.Outcome State Fault Refusal :=
  match keyIndex (s.getV x) with
  | some k => .next (s.skipIf (!s.keyDown k))
  | none => raiseFault .keyIndexOutOfRange (.key (s.getV x)) (.sknp x) s

/-- `LD Vx, DT` (R212). -/
def execLdVxDT (x : Reg) (s : State) : Host.Outcome State Fault Refusal := .next (s.setV x s.DT)

/-- `LD Vx, K` (R213): the lowest key down to V[X]; with none down the pc goes back by 2, and the next step runs this
instruction again. -/
def execLdVxK (x : Reg) (s : State) : Host.Outcome State Fault Refusal :=
  match s.lowestKeyDown with
  | some k => .next (s.setV x (BitVec.ofNat 8 k.val))
  | none => .next (s.setPC (s.pc - 2))

/-- `LD DT, Vx` (R214). -/
def execLdDTVx (x : Reg) (s : State) : Host.Outcome State Fault Refusal := .next (s.setDT (s.getV x))

/-- `LD ST, Vx` (R215). -/
def execLdSTVx (x : Reg) (s : State) : Host.Outcome State Fault Refusal := .next (s.setST (s.getV x))

end Sys2Proof.Machine
end

