-- ==== Sys2Proof/Machine/Sprite.lean ====
section
/-! DEFINITION. The display and the sprite engine (spec/44_display.md rules R190 to R196). -/

namespace Sys2Proof.Machine

/-- `CLS` (R191): every cell off. -/
def execCls (s : State) : Host.Outcome State Fault Refusal := .next (s.setDisp Display.clear)

/-- The display while a sprite is drawn, with whether a cell has been turned off so far (R195). -/
abbrev Canvas := Display × Bool

/-- One set sprite bit on the cell (x, y): note the collision if the cell is on, then invert it (R194, R195). -/
def plot (x y : Nat) (c : Canvas) : Canvas := (c.1.invert x y, c.2 || c.1.cell x y)

/-- The columns of a sprite row, left to right. -/
def spriteColumns : List Nat := [0, 1, 2, 3, 4, 5, 6, 7]

/-- One sprite row on display row y, one column after another; a 0 bit leaves its cell alone (R192 to R194). -/
def drawColumns (vx y : Nat) (row : Byte) (cs : List Nat) (c : Canvas) : Canvas :=
  match cs with
  | [] => c
  | k :: rest => drawColumns vx y row rest (if spriteBit row k then plot (pixelX vx k) y c else c)

/-- The sprite's rows from row j on (R196): row j falls on display row `(vy + j) mod 32`. -/
def drawRows (vx vy j : Nat) (rows : List Byte) (c : Canvas) : Canvas :=
  match rows with
  | [] => c
  | row :: rest => drawRows vx vy (j + 1) rest (drawColumns vx (pixelY vy j) row spriteColumns c)

/-- The whole sprite, with no collision noted at the start (R196). -/
def drawSprite (vx vy : Byte) (rows : List Byte) (d : Display) : Canvas :=
  drawRows vx.toNat vy.toNat 0 rows (d, false)

/-- `DRW Vx, Vy, n` (R196): XOR n rows from memory at I onto the display, VF the collision flag, written last. With n = 0
no memory is read, no bound is checked and VF becomes 0 (D15). -/
def execDrw (x y : Reg) (n : Nat) (s : State) : Host.Outcome State Fault Refusal :=
  if n = 0 ∨ inBounds s.base n then
    .next ((s.setDisp (drawSprite (s.getV x) (s.getV y) (s.mem.readBytes s.base n) s.disp).1).setFlag
      (drawSprite (s.getV x) (s.getV y) (s.mem.readBytes s.base n) s.disp).2)
  else raiseFault .memoryOutOfBounds (.range s.I n) (.drw x y n) s

end Sys2Proof.Machine
end

