-- ==== Sys2Proof/Machine/Fetch.lean ====
section
/-! DEFINITION. The fetch of an instruction (spec/30_encoding.md rules R82 to R84), the faults that fetch and decode raise
(R82, R89), and the placing of a word where the next step fetches it. -/

namespace Sys2Proof.Machine

/-- The word at the pc, big-endian, or `none` when byte `pc` or `pc + 1` is outside memory (R82, R83). Any byte address
will do, odd or even (R55). -/
def State.fetchWord (s : State) : Option Word :=
  if inBounds s.pc.toNat 2 then some (wordOfBytes (s.mem.read s.pc.toNat) (s.mem.read (s.pc.toNat + 1))) else none

/-- The fetch's `pc <- a + 2` (R83); the execute stage runs in this state (R84). -/
def State.fetched (s : State) : State := s.setPC (s.pc + 2)

/-- FETCH_OUT_OF_BOUNDS, info the pc, no word fetched (R82, R231, R232). -/
def State.fetchFault (s : State) : State := s.takeFault .fetchOutOfBounds s.pc none (.address s.pc)

/-- UNIMPLEMENTED_OPCODE, info the word (R89, R231). -/
def State.decodeFault (s : State) (op : Word) : State := s.takeFault .unimplementedOpcode s.pc (some op) (.opcode op)

/-- The address at which a word is placed so that the next step fetches it: the pc where both bytes are inside memory,
`START` otherwise. -/
def State.placeAddress (s : State) : Word := if inBounds s.pc.toNat 2 then s.pc else BitVec.ofNat 16 Config.start

/-- `s` with a word placed where the next step fetches, and the latch open, since a latched block fetches nothing
(R235). -/
def State.placeWord (s : State) (op : Word) : State :=
  { s with
    pc := s.placeAddress
    mem := s.mem.writeBytes s.placeAddress.toNat [hiByte op, loByte op]
    fault := none }

end Sys2Proof.Machine
end

