-- ==== Sys2Proof/Machine/Step.lean ====
section
/-! DEFINITION. The step transaction (spec/30_encoding.md rule R91), and a word placed where the next step fetches it. -/

namespace Sys2Proof.Machine

/-- `Step(r)` (R91), with the checks in the order of rule R233: the latch, the fetch bounds, decode, the instruction's own.
A step that raises a fault gives the next state with the fault latched (R234); in a latched state no step follows (R235).
The random input is in the state (`State.randomByte`). -/
def step (s : State) : Host.Outcome State Fault Refusal :=
  match s.fault with
  | some r => .fault (.latched r)
  | none =>
    match s.fetchWord with
    | none => .next s.fetchFault
    | some op =>
      match decodeWord op with
      | .error _ => .next (s.decodeFault op)
      | .ok i => exec i s.fetched

/-- `s` with the instruction whose bits are `w` placed where `step` fetches its next instruction. Log entry 8. -/
def State.withFetchWord (s : State) (nbits w : Nat) : State := s.placeWord (tableWord nbits w)

end Sys2Proof.Machine
end

