-- ==== Sys2Proof/Machine/Ports.lean ====
section
/-! DEFINITION. The host ports, which with the step are the block's whole interface (spec/60_exceptions.md rules R237, R242
to R258). Each is one atomic transaction; the host calls them one at a time, in any order and at any rate. -/

namespace Sys2Proof.Machine

/-- What a port gives back to the host. -/
inductive Reply where
  /-- The call was done (R250). -/
  | ok
  /-- `step`: the latched fault record (R91, R235). -/
  | faulted (r : FaultRecord)
  /-- `tick_timers`: the tone output (R245). -/
  | tone (on : Bool)
  /-- `display_snapshot`: a copy of the display (R255). -/
  | display (d : Display)
  /-- `keypress` with an index of 16 or more (R237). -/
  | rejectKeyIndex
  /-- `load` of an image that does not fit (R237). -/
  | rejectLoadSize
  /-- The model's own: `step` met an instruction without a meaning. There is none. -/
  | unmodelled (r : Refusal)
  deriving DecidableEq, Repr

/-- `new()` (R251): the power-on state. -/
def newMachine : State := State.reset

/-- `load(bytes)` (R252): the image to 0x200 and up, or a rejection that changes nothing. -/
def loadPort (bytes : List Byte) (s : State) : State × Reply :=
  if inBounds Config.start bytes.length then (s.setMem (s.mem.writeBytes Config.start bytes), .ok) else (s, .rejectLoadSize)

/-- `s` with the random byte `r` on the step's input (R13). -/
def State.withRandom (s : State) (r : Byte) : State := { s with randomIn := some r }

/-- `s` with nothing on the step's random input. -/
def State.withoutRandom (s : State) : State := { s with randomIn := none }

/-- The step port's reply for a state after the step: `ok`, or the record its latch holds (R91). -/
def stepReply (s : State) : Reply :=
  match s.fault with
  | none => .ok
  | some r => .faulted r

/-- `step(r)` (R91, R253): one step with the random byte `r`. A latched block changes nothing and returns its record
(R235). -/
def stepPort (r : Byte) (s : State) : State × Reply :=
  match step (s.withRandom r) with
  | .next t => (t.withoutRandom, stepReply t)
  | .fault (.latched f) => (s, .faulted f)
  | .refused q => (s, .unmodelled q)

/-- One tick of one timer: down by 1, saturating at 0 (R244). -/
def tickDown (t : Byte) : Byte := if 0 < t.toNat then t - 1 else t

/-- `tick_timers()` (R244, R245): both timers down by 1 where they are not 0; tone when ST was exactly 1. The latch does
not stop it (R246). -/
def tickPort (s : State) : State × Reply :=
  ((s.setDT (tickDown s.DT)).setST (tickDown s.ST), .tone (s.ST == 1))

/-- `keypress(index, pressed)` (R254). -/
def keypressPort (index : Nat) (pressed : Bool) (s : State) : State × Reply :=
  if h : index < 16 then (s.setKey ⟨index, h⟩ pressed, .ok) else (s, .rejectKeyIndex)

/-- `display_snapshot()` (R255): a copy of the display, no state changed. -/
def snapshotPort (s : State) : State × Reply := (s, .display s.disp)

/-- `reset()` (R256, R271, R272): the power-on state, whatever the state was. -/
def resetPort (s : State) : State × Reply := (s.afterReset, .ok)

/-- A call the host makes on a block (R250). `new()` is no call on a block: it makes one (`newMachine`). -/
inductive HostCall where
  | load (bytes : List Byte)
  | step (r : Byte)
  | tickTimers
  | keypress (index : Nat) (pressed : Bool)
  | displaySnapshot
  | reset
  deriving DecidableEq, Repr

/-- One transaction (R62, R250). -/
def transact (c : HostCall) (s : State) : State × Reply :=
  match c with
  | .load bytes => loadPort bytes s
  | .step r => stepPort r s
  | .tickTimers => tickPort s
  | .keypress index pressed => keypressPort index pressed s
  | .displaySnapshot => snapshotPort s
  | .reset => resetPort s

/-- The host's calls in their total order (R63), with the replies. -/
def session (cs : List HostCall) (s : State) : State × List Reply :=
  match cs with
  | [] => (s, [])
  | c :: rest =>
    let (t, r) := transact c s
    let (u, rs) := session rest t
    (u, r :: rs)

end Sys2Proof.Machine
end

