-- ==== Sys2Proof/Safety.lean ====
section
/-! DEFINITION. What claims speak of: the end of a run (spec/70_reset_and_hazards.md rule R285), the waiting state, the
invariants of the state, and frames. -/

namespace Sys2Proof.Machine

/-! ### The end of a run -/

/-- Terminal (R285): no fault, and the word at the pc jumps to the pc. -/
def State.terminal (s : State) : Prop :=
  s.fault = none ∧ s.pc.toNat ≤ 0xFFF ∧ s.fetchWord = some (BitVec.ofNat 16 (0x1000 + s.pc.toNat))

/-- Faulted (R285). -/
def State.faulted (s : State) : Prop := s.fault ≠ none

/-- A step completes without a fault. -/
def State.completes (s : State) : Prop := ∃ t, step s = .next t ∧ t.fault = none

/-! ### Invariants -/

/-- Memory is in its canonical form: 4096 bytes, each address listed at most once, none beyond 4095 (R30). -/
def State.memCanonical (s : State) : Prop := s.mem.wf = true

/-- The bounds of rule R121 on every address the machine holds for the pc: the pc is at most 4350, and every stack entry,
stale ones too, is at most 4096. -/
def State.pcBounded (s : State) : Prop := s.pc.toNat ≤ 4350 ∧ ∀ k : Fin 16, (s.stack[k.val]).toNat ≤ 4096

/-- Both. -/
def State.Inv (s : State) : Prop := s.memCanonical ∧ s.pcBounded

/-! ### The instruction a step runs, and the fault it raises, read from the spec's tables -/

/-- The number `w` is the word of `i`: the decoder reads `i` from it. -/
def WordOf (w : Nat) (i : Instr) : Prop := decodeWord (BitVec.ofNat 16 w) = .ok i

/-- The word at the pc as a number: the byte at the lower address is the high one (R53). -/
def State.wordAtPC (s : State) : Nat :=
  (s.mem.read s.pc.toNat).toNat * 256 + (s.mem.read (s.pc.toNat + 1)).toNat

/-- The next step fetches inside memory and decodes `i`. -/
def State.runs (s : State) (i : Instr) : Prop := s.pc.toNat ≤ 4094 ∧ WordOf s.wordAtPC i

/-- The check an instruction makes of its own, and the fault when it fails (R231). -/
def ownFault (i : Instr) (s : State) : Option (FaultCause × FaultInfo) :=
  match i with
  | .call _ => if s.sp.val = 16 then some (.stackOverflow, .none) else none
  | .ret => if s.sp.val = 0 then some (.stackUnderflow, .none) else none
  | .drw _ _ n => if 0 < n ∧ 4096 < s.I.toNat + n then some (.memoryOutOfBounds, .range s.I n) else none
  | .ldB _ => if 4096 < s.I.toNat + 3 then some (.memoryOutOfBounds, .range s.I 3) else none
  | .ldMemVx x =>
    if 4096 < s.I.toNat + (x.val + 1) then some (.memoryOutOfBounds, .range s.I (x.val + 1)) else none
  | .ldVxMem x =>
    if 4096 < s.I.toNat + (x.val + 1) then some (.memoryOutOfBounds, .range s.I (x.val + 1)) else none
  | .skp x => if 16 ≤ (s.getV x).toNat then some (.keyIndexOutOfRange, .key (s.getV x)) else none
  | .sknp x => if 16 ≤ (s.getV x).toNat then some (.keyIndexOutOfRange, .key (s.getV x)) else none
  | .nop | .cls | .jp _ | .seImm _ _ | .sneImm _ _ | .seReg _ _ | .ldImm _ _ | .addImm _ _ | .ldReg _ _ | .orReg _ _
  | .andReg _ _ | .xorReg _ _ | .addReg _ _ | .subReg _ _ | .shr _ | .subn _ _ | .shl _ | .sneReg _ _ | .ldI _ | .jpV0 _
  | .rnd _ _ | .ldVxDT _ | .ldVxK _ | .ldDTVx _ | .ldSTVx _ | .addI _ | .ldF _ => none

/-- The record of the fault the next step raises, if it raises one: fetch bounds first, then decode, then the
instruction's own check (R231 to R233). -/
def State.faultOfStep (s : State) : Option FaultRecord :=
  if 4095 ≤ s.pc.toNat then some ⟨.fetchOutOfBounds, s.pc, none, .address s.pc⟩
  else
    match decodeWord (BitVec.ofNat 16 s.wordAtPC) with
    | .error _ => some ⟨.unimplementedOpcode, s.pc, some (BitVec.ofNat 16 s.wordAtPC), .opcode (BitVec.ofNat 16 s.wordAtPC)⟩
    | .ok i =>
      match ownFault i s with
      | none => none
      | some (cause, info) => some ⟨cause, s.pc, some (BitVec.ofNat 16 s.wordAtPC), info⟩

/-- The illegal words, as the table of rule R89 lists them. -/
def illegalListed (w : Nat) : Bool :=
  (w / 4096 == 0x0 && w != 0x0000 && w != 0x00E0 && w != 0x00EE) ||
  (w / 4096 == 0x5 && w % 16 != 0) ||
  (w / 4096 == 0x8 && [0x8, 0x9, 0xA, 0xB, 0xC, 0xD, 0xF].contains (w % 16)) ||
  (w / 4096 == 0x9 && w % 16 != 0) ||
  (w / 4096 == 0xE && w % 256 != 0x9E && w % 256 != 0xA1) ||
  (w / 4096 == 0xF && !([0x07, 0x0A, 0x15, 0x18, 0x1E, 0x29, 0x33, 0x55, 0x65].contains (w % 256)))

/-- Some set bit of the n-row sprite at `I`, drawn with origin (vx, vy), falls on the cell at column u and row v
(R192, R193). -/
def spriteCovers (s : State) (vx vy : Byte) (n u v : Nat) : Prop :=
  ∃ j c, j < n ∧ c < 8 ∧ (s.mem.read (s.base + j)).getLsbD (7 - c) = true ∧
    u = (vx.toNat + c) % 64 ∧ v = (vy.toNat + j) % 32

/-! ### Frames -/

/-- The parts of the state beside the general registers and the pc. `random` is the model's own pair of fields. -/
inductive Part where
  | I | stack | sp | mem | disp | keys | DT | ST | fault | random
  deriving DecidableEq, Repr

/-- A part holds in `t` what it holds in `s`. Memory is compared byte by byte, over every address. -/
def Part.same (p : Part) (s t : State) : Prop :=
  match p with
  | .I => t.I = s.I
  | .stack => t.stack = s.stack
  | .sp => t.sp = s.sp
  | .mem => ∀ a, t.mem.read a = s.mem.read a
  | .disp => t.disp = s.disp
  | .keys => t.keys = s.keys
  | .DT => t.DT = s.DT
  | .ST => t.ST = s.ST
  | .fault => t.fault = s.fault
  | .random => t.randomIn = s.randomIn ∧ t.draws = s.draws

/-- From `s` to `t` every general register outside `regs` and every part outside `parts` is unchanged. The pc is not spoken
of. -/
def Frame (regs : List Reg) (parts : List Part) (s t : State) : Prop :=
  (∀ y, y ∉ regs → t.getV y = s.getV y) ∧ ∀ p, p ∉ parts → p.same s t

/-- From `s` to `t` nothing is changed but the pc, the registers `regs` and the parts `parts`; and the pc, which the fetch
advanced, is left there. -/
def FrameAt (regs : List Reg) (parts : List Part) (s t : State) : Prop := Frame regs parts s t ∧ t.pc = s.pc

/-- `t` is `s` with a fault taken: the pc back at the faulting instruction, the record latched, all else unchanged. -/
def TookFault (cause : FaultCause) (op : Word) (info : FaultInfo) (s t : State) : Prop :=
  Frame [] [.fault] s t ∧ t.pc = s.pc - 2 ∧
    t.fault = some { cause := cause, addr := s.pc - 2, op := some op, info := info }

end Sys2Proof.Machine
end

