-- ==== Sys2Proof/Certificates/Slice0/Obligations.lean ====
section
/-! DEFINITION. The statements for the provers, each with the rule of spec/ it formalises. -/

open Sys2Proof Sys2Proof.Machine

/-! ### Encoding -/

/-- Decoding the word of any well-formed instruction gives that instruction (R81, R85, R87, R93). -/
def Obligations.DecodeInvertsEncode : Prop :=
  ∀ i : Instr, i.wellFormed = true →
    decodeWord (encode i) = .ok i ∧ ∀ rest, decodeBytes (encodeBytes i ++ rest) = .ok (i, rest)

/-- Every instruction the decoder gives is well formed, and its word is the one it was read from, but for the Y nibble of
`8XY6` and `8XYE`, which is no operand (R85, R86, R87). -/
def Obligations.DecodedInstructionReencodes : Prop :=
  ∀ (w : Word) (i : Instr), decodeWord w = .ok i →
    i.wellFormed = true ∧
      (match i with
       | .shr _ => (encode i).toNat + w.toNat / 16 % 16 * 16 = w.toNat
       | .shl _ => (encode i).toNat + w.toNat / 16 % 16 * 16 = w.toNat
       | _ => encode i = w)

/-- A word is rejected exactly when the table of illegal words lists it, 21581 words are, and a step latches
UNIMPLEMENTED_OPCODE with info the word exactly when the word at the pc is one of them (R89). -/
def Obligations.IllegalWordsAreTheListed : Prop :=
  (∀ w : Word, (∃ e, decodeWord w = .error e) ↔ illegalListed w.toNat = true) ∧
  ((List.range 65536).filter illegalListed).length = 21581 ∧
  ∀ s : State, s.fault = none → s.pc.toNat ≤ 4094 →
    ((∃ t r, step s = .next t ∧ t.fault = some r ∧ r.cause = .unimplementedOpcode ∧
      r.info = .opcode (BitVec.ofNat 16 s.wordAtPC)) ↔ illegalListed s.wordAtPC = true)

/-- Words written out from the encodings of R81 to R87 (the nibbles of `8XY_` are the spec's reading G5, log entry 13),
one or more of every format, and what they stand for. -/
def Obligations.SpecWordsDecode : Prop :=
  decodeWord 0b0000000000000000 = .ok .nop ∧
  decodeWord 0b0000000011100000 = .ok .cls ∧
  decodeWord 0b0010101010111100 = .ok (.call 0xABC) ∧
  decodeWord 0b0110101000000101 = .ok (.ldImm 0xA 0x05) ∧
  decodeWord 0b1000101010110100 = .ok (.addReg 0xA 0xB) ∧
  decodeWord 0b1010001000000000 = .ok (.ldI 0x200) ∧
  decodeWord 0b1101000000010101 = .ok (.drw 0 1 5) ∧
  decodeWord 0b1110001010011110 = .ok (.skp 2) ∧
  decodeWord 0b1111001101010101 = .ok (.ldMemVx 3)

/-- Any Y nibble of `8XY6` and `8XYE` decodes to the same instruction (R86). -/
def Obligations.ShiftsIgnoreTheYNibble : Prop :=
  ∀ x y : Reg,
    WordOf (0x8006 + x.val * 256 + y.val * 16) (.shr x) ∧ WordOf (0x800E + x.val * 256 + y.val * 16) (.shl x)

/-! ### The step -/

/-- With the latch open and both bytes at the pc inside memory, a step of a word that decodes to `i` is the execution of `i`
with the pc advanced by 2 (R82 to R84, R91). -/
def Obligations.StepRunsTheDecodedInstruction : Prop :=
  ∀ (s : State) (i : Instr), s.fault = none → s.pc.toNat + 1 ≤ 4095 →
    decodeWord (BitVec.ofNat 16 ((s.mem.read s.pc.toNat).toNat * 256 + (s.mem.read (s.pc.toNat + 1)).toNat)) = .ok i →
    step s = exec i (s.setPC (s.pc + 2))

/-- A step whose pc is 4095 or more latches FETCH_OUT_OF_BOUNDS with info the pc and changes nothing else (R82). -/
def Obligations.FetchPastMemoryFaults : Prop :=
  ∀ s : State, s.fault = none → 4095 ≤ s.pc.toNat →
    ∃ t, step s = .next t ∧ t.fault = some ⟨.fetchOutOfBounds, s.pc, none, .address s.pc⟩ ∧ FrameAt [] [.fault] s t

/-- A step of an illegal word latches UNIMPLEMENTED_OPCODE with info the word and changes nothing else (R89). -/
def Obligations.IllegalWordFaults : Prop :=
  ∀ s : State, s.fault = none → s.pc.toNat ≤ 4094 → illegalListed s.wordAtPC = true →
    ∃ t, step s = .next t ∧ FrameAt [] [.fault] s t ∧
      t.fault = some ⟨.unimplementedOpcode, s.pc, some (BitVec.ofNat 16 s.wordAtPC), .opcode (BitVec.ofNat 16 s.wordAtPC)⟩

/-- A step from an open latch always gives a next state, and it latches exactly the fault that the tables of causes, records
and priorities give, or none (R231 to R233). -/
def Obligations.StepLatchesExactlyTheSpecifiedFault : Prop :=
  (∀ s : State, s.fault = none → ∃ t, step s = .next t ∧ t.fault = s.faultOfStep) ∧
  FaultCause.unimplementedOpcode.code = 1 ∧ FaultCause.fetchOutOfBounds.code = 2 ∧ FaultCause.memoryOutOfBounds.code = 3 ∧
  FaultCause.stackOverflow.code = 4 ∧ FaultCause.stackUnderflow.code = 5 ∧ FaultCause.keyIndexOutOfRange.code = 6

/-- A step that raises a fault keeps no write: everything but the latch is as it was when the step began, the pc at the
faulting instruction, and the latch takes the record (R234). -/
def Obligations.FaultedStepKeepsEverythingElse : Prop :=
  ∀ s t : State, s.fault = none → step s = .next t → t.fault ≠ none →
    FrameAt [] [.fault] s t ∧ ∃ r, t.fault = some r ∧ s.faultOfStep = some r ∧ r.addr = s.pc

/-- While the latch holds a record no step follows, and the step port changes no state and returns the record; every call of the
host but `reset` leaves the record latched, and `reset` clears it (R235, R236, R272). -/
def Obligations.LatchedBlockDoesNotExecute : Prop :=
  ∀ (s : State) (r : FaultRecord), s.fault = some r →
    step s = .fault (.latched r) ∧ (∀ b, stepPort b s = (s, .faulted r)) ∧
    (∀ c : HostCall, c ≠ .reset → (transact c s).1.fault = some r) ∧ (transact .reset s).1.fault = none

/-! ### Control flow -/

/-- `0000` changes nothing beyond the fetch (R111). -/
def Obligations.NopOnlyAdvancesThePC : Prop :=
  WordOf 0x0000 .nop ∧
  (∀ s : State, ∃ t, exec .nop s = .next t ∧ FrameAt [] [] s t) ∧
  ∀ s : State, s.fault = none → s.pc.toNat ≤ 4094 → s.mem.read s.pc.toNat = 0 → s.mem.read (s.pc.toNat + 1) = 0 →
    ∃ t, step s = .next t ∧ t.pc.toNat = s.pc.toNat + 2 ∧ Frame [] [] s t

/-- `00EE` pops the pc off the call stack, leaving the entry in place; with no call pending it takes STACK_UNDERFLOW
(R112). -/
def Obligations.RetPopsThePC : Prop :=
  WordOf 0x00EE .ret ∧
  ∀ s : State,
    (∀ k : Fin 16, s.sp.val = k.val + 1 →
      ∃ t, exec .ret s = .next t ∧ t.pc = s.stack[k.val] ∧ t.sp.val = k.val ∧ Frame [] [.sp] s t) ∧
    (s.sp.val = 0 → ∃ t, exec .ret s = .next t ∧ TookFault .stackUnderflow 0x00EE .none s t)

/-- `1NNN` sets the pc to NNN (R113). -/
def Obligations.JpSetsThePC : Prop :=
  ∀ nnn : Word, nnn.toNat < 4096 →
    WordOf (0x1000 + nnn.toNat) (.jp nnn) ∧
    ∀ s : State, ∃ t, exec (.jp nnn) s = .next t ∧ t.pc = nnn ∧ Frame [] [] s t

/-- `2NNN` pushes the pc, which is the return address, and jumps; with 16 calls pending it takes STACK_OVERFLOW (R114). -/
def Obligations.CallPushesTheReturnAddress : Prop :=
  ∀ nnn : Word, nnn.toNat < 4096 →
    WordOf (0x2000 + nnn.toNat) (.call nnn) ∧
    ∀ s : State,
      (∀ k : Fin 16, s.sp.val = k.val →
        ∃ t, exec (.call nnn) s = .next t ∧ t.stack[k.val] = s.pc ∧ (∀ j : Fin 16, j ≠ k → t.stack[j.val] = s.stack[j.val]) ∧
          t.sp.val = k.val + 1 ∧ t.pc = nnn ∧ Frame [] [.stack, .sp] s t) ∧
      (s.sp.val = 16 → ∃ t, exec (.call nnn) s = .next t ∧
        TookFault .stackOverflow (BitVec.ofNat 16 (0x2000 + nnn.toNat)) .none s t)

/-- A return, wherever it stands, resumes after the call that is pending: the pc and `sp` are those the call had on entry
(R112, R114). -/
def Obligations.ReturnResumesAfterCall : Prop :=
  ∀ (nnn : Word) (s : State) (p : Word), s.sp.val < 16 →
    ∃ t u, exec (.call nnn) s = .next t ∧ exec .ret (t.setPC p) = .next u ∧ u.pc = s.pc ∧ u.sp = s.sp ∧
      Frame [] [.stack] s u

/-- `3XNN` and `4XNN` advance the pc by 2 more exactly when VX equals, or differs from, NN (R115 to R117). -/
def Obligations.ImmediateSkips : Prop :=
  ∀ (x : Reg) (nn : Byte),
    WordOf (0x3000 + x.val * 256 + nn.toNat) (.seImm x nn) ∧ WordOf (0x4000 + x.val * 256 + nn.toNat) (.sneImm x nn) ∧
    ∀ s : State,
      (∃ t, exec (.seImm x nn) s = .next t ∧ t.pc = (if s.getV x = nn then s.pc + 2 else s.pc) ∧ Frame [] [] s t) ∧
      (∃ t, exec (.sneImm x nn) s = .next t ∧ t.pc = (if s.getV x ≠ nn then s.pc + 2 else s.pc) ∧ Frame [] [] s t)

/-- `5XY0` and `9XY0` advance the pc by 2 more exactly when VX equals, or differs from, VY (R115, R118, R119). -/
def Obligations.RegisterSkips : Prop :=
  ∀ x y : Reg,
    WordOf (0x5000 + x.val * 256 + y.val * 16) (.seReg x y) ∧ WordOf (0x9000 + x.val * 256 + y.val * 16) (.sneReg x y) ∧
    ∀ s : State,
      (∃ t, exec (.seReg x y) s = .next t ∧ t.pc = (if s.getV x = s.getV y then s.pc + 2 else s.pc) ∧ Frame [] [] s t) ∧
      (∃ t, exec (.sneReg x y) s = .next t ∧ t.pc = (if s.getV x ≠ s.getV y then s.pc + 2 else s.pc) ∧ Frame [] [] s t)

/-- `BNNN` sets the pc to V0 + NNN, not masked (R120). -/
def Obligations.JpV0AddsTheOffset : Prop :=
  ∀ nnn : Word, nnn.toNat < 4096 →
    WordOf (0xB000 + nnn.toNat) (.jpV0 nnn) ∧
    ∀ s : State, ∃ t, exec (.jpV0 nnn) s = .next t ∧ t.pc.toNat = (s.getV 0).toNat + nnn.toNat ∧ Frame [] [] s t

/-! ### ALU -/

/-- `6XNN` sets VX to NN; `7XNN` adds NN to VX modulo 256 and writes no flag (R141, R142). -/
def Obligations.ImmediateLoadAndAdd : Prop :=
  ∀ (x : Reg) (nn : Byte),
    WordOf (0x6000 + x.val * 256 + nn.toNat) (.ldImm x nn) ∧ WordOf (0x7000 + x.val * 256 + nn.toNat) (.addImm x nn) ∧
    ∀ s : State,
      (∃ t, exec (.ldImm x nn) s = .next t ∧ t.getV x = nn ∧ FrameAt [x] [] s t) ∧
      (∃ t, exec (.addImm x nn) s = .next t ∧ (t.getV x).toNat = ((s.getV x).toNat + nn.toNat) % 256 ∧
        FrameAt [x] [] s t)

/-- `8XY0` copies VY to VX; `8XY1` to `8XY3` set VX to VX OR, AND, XOR VY; VF is not written as a flag (R143 to R146). -/
def Obligations.CopyAndLogic : Prop :=
  ∀ x y : Reg,
    WordOf (0x8000 + x.val * 256 + y.val * 16) (.ldReg x y) ∧ WordOf (0x8001 + x.val * 256 + y.val * 16) (.orReg x y) ∧
    WordOf (0x8002 + x.val * 256 + y.val * 16) (.andReg x y) ∧ WordOf (0x8003 + x.val * 256 + y.val * 16) (.xorReg x y) ∧
    ∀ s : State,
      (∃ t, exec (.ldReg x y) s = .next t ∧ t.getV x = s.getV y ∧ FrameAt [x] [] s t) ∧
      (∃ t, exec (.orReg x y) s = .next t ∧ (t.getV x).toNat = (s.getV x).toNat ||| (s.getV y).toNat ∧
        FrameAt [x] [] s t) ∧
      (∃ t, exec (.andReg x y) s = .next t ∧ (t.getV x).toNat = (s.getV x).toNat &&& (s.getV y).toNat ∧
        FrameAt [x] [] s t) ∧
      (∃ t, exec (.xorReg x y) s = .next t ∧ (t.getV x).toNat = (s.getV x).toNat ^^^ (s.getV y).toNat ∧
        FrameAt [x] [] s t)

/-- `8XY4` adds VY to VX modulo 256 and then sets VF to the carry, which stands when X is F (R140, R147). -/
def Obligations.AddSetsCarry : Prop :=
  ∀ x y : Reg,
    WordOf (0x8004 + x.val * 256 + y.val * 16) (.addReg x y) ∧
    ∀ s : State, ∃ t, exec (.addReg x y) s = .next t ∧
      (x ≠ VF → (t.getV x).toNat = ((s.getV x).toNat + (s.getV y).toNat) % 256) ∧
      t.getV VF = (if 256 ≤ (s.getV x).toNat + (s.getV y).toNat then 1 else 0) ∧ FrameAt [x, VF] [] s t

/-- `8XY5` and `8XY7` set VX to VX - VY and to VY - VX, modulo 256, and then VF to NOT borrow, which stands when X is F
(R140, R148, R150). -/
def Obligations.SubtractsSetNotBorrow : Prop :=
  ∀ x y : Reg,
    WordOf (0x8005 + x.val * 256 + y.val * 16) (.subReg x y) ∧ WordOf (0x8007 + x.val * 256 + y.val * 16) (.subn x y) ∧
    ∀ s : State,
      (∃ t, exec (.subReg x y) s = .next t ∧
        (x ≠ VF → ((t.getV x).toNat : Int) = (((s.getV x).toNat : Int) - (s.getV y).toNat) % 256) ∧
        t.getV VF = (if (s.getV y).toNat ≤ (s.getV x).toNat then 1 else 0) ∧ FrameAt [x, VF] [] s t) ∧
      (∃ t, exec (.subn x y) s = .next t ∧
        (x ≠ VF → ((t.getV x).toNat : Int) = (((s.getV y).toNat : Int) - (s.getV x).toNat) % 256) ∧
        t.getV VF = (if (s.getV x).toNat ≤ (s.getV y).toNat then 1 else 0) ∧ FrameAt [x, VF] [] s t)

/-- `8XY6` and `8XYE`, with any Y, shift VX right and left by one and then set VF to the bit dropped, which stands when X is F
(R140, R149, R151). -/
def Obligations.ShiftsSetTheDroppedBit : Prop :=
  ∀ x y : Reg,
    WordOf (0x8006 + x.val * 256 + y.val * 16) (.shr x) ∧ WordOf (0x800E + x.val * 256 + y.val * 16) (.shl x) ∧
    ∀ s : State,
      (∃ t, exec (.shr x) s = .next t ∧ (x ≠ VF → (t.getV x).toNat = (s.getV x).toNat / 2) ∧
        (t.getV VF).toNat = (s.getV x).toNat % 2 ∧ FrameAt [x, VF] [] s t) ∧
      (∃ t, exec (.shl x) s = .next t ∧ (x ≠ VF → (t.getV x).toNat = 2 * (s.getV x).toNat % 256) ∧
        (t.getV VF).toNat = (s.getV x).toNat / 128 ∧ FrameAt [x, VF] [] s t)

/-- `CXNN` sets VX to the step's random byte AND NN, whatever the byte (R155). The byte is used up: the frame leaves out the
model's own pair of fields (log entry 2). -/
def Obligations.RndMasksTheStepsByte : Prop :=
  ∀ (x : Reg) (nn : Byte),
    WordOf (0xC000 + x.val * 256 + nn.toNat) (.rnd x nn) ∧
    ∀ (s : State) (r : Byte), ∃ t, exec (.rnd x nn) (s.withRandom r) = .next t ∧
      t.getV x = r &&& nn ∧ FrameAt [x] [.random] s t

/-- The model's choice (log entry 2): with no byte on the input `CXNN` uses the free value of the draws made so far, and the
next `CXNN` the one after it. -/
def Obligations.RndDrawsAFreshFreeByte : Prop :=
  ∀ (x y : Reg) (s : State), s.randomIn = none → x ≠ y →
    ∃ t u, exec (.rnd x 0xFF) s = .next t ∧ exec (.rnd y 0xFF) t = .next u ∧
      u.getV x = Config.randomByte s.draws ∧ u.getV y = Config.randomByte (s.draws + 1) ∧
      u.randomIn = none ∧ u.draws = s.draws + 2 ∧ FrameAt [x, y] [.random] s u

/-- No instruction but `CXNN` depends on the step's random byte (R13, R27, R92): with another byte on the input the step does the
same. -/
def Obligations.OnlyRndDependsOnTheRandomByte : Prop :=
  ∀ (s t : State) (r : Byte), (∀ x nn, ¬ s.runs (.rnd x nn)) → step s = .next t →
    step (s.withRandom r) = .next (t.withRandom r)

/-! ### Index register and memory -/

/-- `ANNN` sets I to NNN, `FX1E` adds VX to I modulo 65536 with no flag, `FX29` sets I to VX * 5, whatever VX (R171 to
R173). -/
def Obligations.IndexRegisterWrites : Prop :=
  (∀ nnn : Word, nnn.toNat < 4096 → WordOf (0xA000 + nnn.toNat) (.ldI nnn) ∧
    ∀ s : State, ∃ t, exec (.ldI nnn) s = .next t ∧ t.I = nnn ∧ FrameAt [] [.I] s t) ∧
  ∀ x : Reg, WordOf (0xF01E + x.val * 256) (.addI x) ∧ WordOf (0xF029 + x.val * 256) (.ldF x) ∧
    ∀ s : State,
      (∃ t, exec (.addI x) s = .next t ∧ t.I.toNat = (s.I.toNat + (s.getV x).toNat) % 65536 ∧ FrameAt [] [.I] s t) ∧
      (∃ t, exec (.ldF x) s = .next t ∧ t.I.toNat = (s.getV x).toNat * 5 ∧ FrameAt [] [.I] s t)

/-- `FX33` stores the hundreds, tens and ones of VX at I, I+1, I+2 and touches no other byte; past the end of memory it takes
MEMORY_OUT_OF_BOUNDS (R174). -/
def Obligations.BcdStoresTheDigits : Prop :=
  ∀ x : Reg, WordOf (0xF033 + x.val * 256) (.ldB x) ∧
    ∀ s : State, s.memCanonical →
      (s.base + 3 ≤ 4096 → ∃ t, exec (.ldB x) s = .next t ∧
        (t.mem.read s.base).toNat = (s.getV x).toNat / 100 ∧
        (t.mem.read (s.base + 1)).toNat = (s.getV x).toNat / 10 % 10 ∧
        (t.mem.read (s.base + 2)).toNat = (s.getV x).toNat % 10 ∧
        (∀ a, a < s.base ∨ s.base + 3 ≤ a → t.mem.read a = s.mem.read a) ∧ FrameAt [] [.mem] s t) ∧
      (4096 < s.base + 3 → ∃ t, exec (.ldB x) s = .next t ∧
        TookFault .memoryOutOfBounds (BitVec.ofNat 16 (0xF033 + x.val * 256)) (.range s.I 3) s t)

/-- `FX55` stores V0..VX at I..I+X and touches no other byte; past the end of memory it takes MEMORY_OUT_OF_BOUNDS
(R175). -/
def Obligations.BlockStoreWritesV0ToVX : Prop :=
  ∀ x : Reg, WordOf (0xF055 + x.val * 256) (.ldMemVx x) ∧
    ∀ s : State, s.memCanonical →
      (s.base + (x.val + 1) ≤ 4096 → ∃ t, exec (.ldMemVx x) s = .next t ∧
        (∀ k : Reg, k.val ≤ x.val → t.mem.read (s.base + k.val) = s.getV k) ∧
        (∀ a, a < s.base ∨ s.base + (x.val + 1) ≤ a → t.mem.read a = s.mem.read a) ∧ FrameAt [] [.mem] s t) ∧
      (4096 < s.base + (x.val + 1) → ∃ t, exec (.ldMemVx x) s = .next t ∧
        TookFault .memoryOutOfBounds (BitVec.ofNat 16 (0xF055 + x.val * 256)) (.range s.I (x.val + 1)) s t)

/-- `FX65` loads V0..VX from I..I+X and touches no other register; past the end of memory it takes MEMORY_OUT_OF_BOUNDS
(R176). -/
def Obligations.BlockLoadReadsV0ToVX : Prop :=
  ∀ x : Reg, WordOf (0xF065 + x.val * 256) (.ldVxMem x) ∧
    ∀ s : State,
      (s.base + (x.val + 1) ≤ 4096 → ∃ t, exec (.ldVxMem x) s = .next t ∧
        (∀ k : Reg, k.val ≤ x.val → t.getV k = s.mem.read (s.base + k.val)) ∧ FrameAt (blockRegs x) [] s t ∧
        ∀ k : Reg, k ∈ blockRegs x ↔ k.val ≤ x.val) ∧
      (4096 < s.base + (x.val + 1) → ∃ t, exec (.ldVxMem x) s = .next t ∧
        TookFault .memoryOutOfBounds (BitVec.ofNat 16 (0xF065 + x.val * 256)) (.range s.I (x.val + 1)) s t)

/-- `FX55` and then `FX65` with the same X, with other registers written, and the pc moved, in between, give V0..VX the values
they had before (R177, which the spec derives from R170, R175 and R176). -/
def Obligations.BlockRoundTrip : Prop :=
  ∀ (x : Reg) (s : State), s.memCanonical → s.base + x.val ≤ 4095 →
    ∃ t, exec (.ldMemVx x) s = .next t ∧
      ∀ t' : State, t'.I = t.I → (∀ a, s.base ≤ a → a ≤ s.base + x.val → t'.mem.read a = t.mem.read a) →
        ∃ u, exec (.ldVxMem x) t' = .next u ∧ ∀ k : Reg, k.val ≤ x.val → u.getV k = s.getV k

/-- A store is seen by the next fetch: after `FX55` stores V0 and V1 at I, a fetch from I reads V0 and V1 as the high and low
bytes of the word (R53, R54, R66). -/
def Obligations.FetchSeesTheStore : Prop :=
  ∀ (x : Reg) (s : State), s.memCanonical → 1 ≤ x.val → s.base + (x.val + 1) ≤ 4096 →
    ∃ t, exec (.ldMemVx x) s = .next t ∧
      (t.setPC s.I).fetchWord = some (BitVec.ofNat 16 ((s.getV 0).toNat * 256 + (s.getV 1).toNat))

/-! ### Display -/

/-- `00E0` turns off all 2048 cells (R191). -/
def Obligations.ClsTurnsEveryCellOff : Prop :=
  WordOf 0x00E0 .cls ∧
  ∀ s : State, ∃ t, exec .cls s = .next t ∧ (∀ k, k < 2048 → t.disp.at k = false) ∧ FrameAt [] [.disp] s t

/-- `DXYN` inverts exactly the cells its set bits fall on, both axes wrapping, and sets VF to 1 if one of them was on, else to 0;
it does so for every N and every I whose range is in memory, and for N = 0 with any I (R192 to R196, R198). That column c of a
row is bit 7 - c is the spec's decision D13 (R193, log entry 13). -/
def Obligations.DrawInvertsTheCellsItCovers : Prop :=
  ∀ (x y : Reg) (n : Nat), n < 16 →
    WordOf (0xD000 + x.val * 256 + y.val * 16 + n) (.drw x y n) ∧
    ∀ s : State, n = 0 ∨ s.base + n ≤ 4096 →
      ∃ t, exec (.drw x y n) s = .next t ∧
        (∀ u v, u < 64 → v < 32 →
          (spriteCovers s (s.getV x) (s.getV y) n u v → t.disp.at (u + 64 * v) = !s.disp.at (u + 64 * v)) ∧
          (¬ spriteCovers s (s.getV x) (s.getV y) n u v → t.disp.at (u + 64 * v) = s.disp.at (u + 64 * v))) ∧
        ((∃ u v, spriteCovers s (s.getV x) (s.getV y) n u v ∧ s.disp.at (u + 64 * v) = true) → t.getV VF = 1) ∧
        ((∀ u v, spriteCovers s (s.getV x) (s.getV y) n u v → s.disp.at (u + 64 * v) = false) → t.getV VF = 0) ∧
        FrameAt [VF] [.disp] s t

/-- `DXYN` with N > 0 takes MEMORY_OUT_OF_BOUNDS when its bytes reach past the end of memory: no cell changes and VF keeps its
value (R196). -/
def Obligations.DrawPastMemoryFaults : Prop :=
  ∀ (x y : Reg) (n : Nat) (s : State), n < 16 → 0 < n → 4096 < s.base + n →
    ∃ t, exec (.drw x y n) s = .next t ∧
      TookFault .memoryOutOfBounds (BitVec.ofNat 16 (0xD000 + x.val * 256 + y.val * 16 + n)) (.range s.I n) s t

/-- Drawing the same sprite at the same place twice gives back the display (R197), and the second draw sets VF to 1 exactly when
the sprite covers a cell that was off before the first, which the first draw turned on (R195, R196). Rule R197 words the flag's
clause as "at least one set bit": that is this, but for a sprite all of whose cells were on, where R196 gives 0 (log entry 7).
The coordinates are put back between the draws, since the first draw may have overwritten one. -/
def Obligations.DoubleDrawRestoresTheDisplay : Prop :=
  ∀ (x y : Reg) (n : Nat) (s : State), n < 16 → n = 0 ∨ s.base + n ≤ 4096 →
    ∃ t, exec (.drw x y n) s = .next t ∧
      ∀ t' : State, t'.disp = t.disp → t'.I = s.I → (∀ a, t'.mem.read a = s.mem.read a) →
        t'.getV x = s.getV x → t'.getV y = s.getV y →
        ∃ u, exec (.drw x y n) t' = .next u ∧ u.disp = s.disp ∧
          (u.getV VF = 1 ↔ ∃ c r, spriteCovers s (s.getV x) (s.getV y) n c r ∧ s.disp.at (c + 64 * r) = false)

/-! ### Keys and timers -/

/-- `EX9E` and `EXA1` advance the pc by 2 more exactly when the key numbered by VX is down, or up; from 16 up they take
KEY_INDEX_OUT_OF_RANGE (R115, R210, R211). -/
def Obligations.KeySkips : Prop :=
  ∀ x : Reg, WordOf (0xE09E + x.val * 256) (.skp x) ∧ WordOf (0xE0A1 + x.val * 256) (.sknp x) ∧
    ∀ s : State,
      (∀ k : Fin 16, (s.getV x).toNat = k.val →
        (∃ t, exec (.skp x) s = .next t ∧ t.pc = (if s.keyDown k = true then s.pc + 2 else s.pc) ∧ Frame [] [] s t) ∧
        (∃ t, exec (.sknp x) s = .next t ∧ t.pc = (if s.keyDown k = false then s.pc + 2 else s.pc) ∧ Frame [] [] s t)) ∧
      (16 ≤ (s.getV x).toNat →
        (∃ t, exec (.skp x) s = .next t ∧
          TookFault .keyIndexOutOfRange (BitVec.ofNat 16 (0xE09E + x.val * 256)) (.key (s.getV x)) s t) ∧
        (∃ t, exec (.sknp x) s = .next t ∧
          TookFault .keyIndexOutOfRange (BitVec.ofNat 16 (0xE0A1 + x.val * 256)) (.key (s.getV x)) s t))

/-- `FX07` reads the delay timer into VX; `FX15` and `FX18` set the delay and the sound timer to VX (R212, R214, R215). -/
def Obligations.TimerReadsAndWrites : Prop :=
  ∀ x : Reg, WordOf (0xF007 + x.val * 256) (.ldVxDT x) ∧ WordOf (0xF015 + x.val * 256) (.ldDTVx x) ∧
    WordOf (0xF018 + x.val * 256) (.ldSTVx x) ∧
    ∀ s : State,
      (∃ t, exec (.ldVxDT x) s = .next t ∧ t.getV x = s.DT ∧ FrameAt [x] [] s t) ∧
      (∃ t, exec (.ldDTVx x) s = .next t ∧ t.DT = s.getV x ∧ FrameAt [] [.DT] s t) ∧
      (∃ t, exec (.ldSTVx x) s = .next t ∧ t.ST = s.getV x ∧ FrameAt [] [.ST] s t)

/-- `FX0A` stores the number of the lowest key down in VX; with every key up it takes the pc back by 2 and changes nothing else
(R213). That VX is written, and with the lowest key, the spec supplies itself (G3, D8; log entries 11 and 13). -/
def Obligations.KeyWaitStoresTheLowestKey : Prop :=
  ∀ x : Reg, WordOf (0xF00A + x.val * 256) (.ldVxK x) ∧
    ∀ s : State,
      (∀ k : Fin 16, s.keyDown k = true → (∀ j, j < k → s.keyDown j = false) →
        ∃ t, exec (.ldVxK x) s = .next t ∧ (t.getV x).toNat = k.val ∧ FrameAt [x] [] s t) ∧
      ((∀ k, s.keyDown k = false) → ∃ t, exec (.ldVxK x) s = .next t ∧ t.pc = s.pc - 2 ∧ Frame [] [] s t)

/-- A block at `FX0A` with every key up is in the same state after any number of steps (R213, R279). -/
def Obligations.KeyWaitNeverTimesOut : Prop :=
  ∀ (s : State) (x : Reg) (k : Nat), s.fault = none → s.runs (.ldVxK x) → (∀ j, s.keyDown j = false) →
    Host.Core.run Sys2Proof.core k s = .next s

/-! ### Whole-machine rules -/

/-- Every step keeps memory in its canonical form, which is the model's own choice of data for the 4096 bytes
(DESIGN CHOICE, log entry 9; R30, R41, R58). -/
def Obligations.StepKeepsMemoryCanonical : Prop :=
  ∀ s t : State, s.memCanonical → step s = .next t → t.memCanonical

/-- From a pc of at most 4350 and stack entries of at most 4096, a step leaves them so: no pc computation wraps (R121, which the
spec derives from its rules for each instruction). -/
def Obligations.StepKeepsThePCBounded : Prop :=
  ∀ s t : State, s.pcBounded → step s = .next t → t.pcBounded

/-- The state after reset (R270) has canonical memory, which is the model's own choice of data (DESIGN CHOICE, log entry 9), and a pc
and stack entries within the bounds of R121. -/
def Obligations.ResetMeetsTheInvariants : Prop := State.reset.Inv

/-- Every sequence of the host's calls (R250), whatever they are and however they are ordered, keeps both invariants: the bounds
of the pc and the stack entries, which the spec derives in R121, and canonical memory, which is the model's own choice of data for
the 4096 bytes (DESIGN CHOICE, log entry 9; R30). -/
def Obligations.EverySessionKeepsTheInvariants : Prop :=
  ∀ (cs : List HostCall) (s : State), s.Inv → (session cs s).1.Inv

/-- A step changes the parity of the pc only if it runs `1NNN`, `2NNN`, `BNNN` or `00EE` (R25). -/
def Obligations.OnlyTransfersChangeThePCsParity : Prop :=
  ∀ s t : State, step s = .next t →
    (∀ nnn, ¬ s.runs (.jp nnn) ∧ ¬ s.runs (.call nnn) ∧ ¬ s.runs (.jpV0 nnn)) → ¬ s.runs .ret →
    t.pc.toNat % 2 = s.pc.toNat % 2

/-- No step writes a key; a step writes DT only by `FX15` and ST only by `FX18` (R35, R92). -/
def Obligations.StepsLeaveKeysAndTimersAlone : Prop :=
  ∀ s t : State, step s = .next t →
    t.keys = s.keys ∧ ((∀ x, ¬ s.runs (.ldDTVx x)) → t.DT = s.DT) ∧ ((∀ x, ¬ s.runs (.ldSTVx x)) → t.ST = s.ST)

/-- A step changes a byte of memory only by `FX33` at I..I+2 or by `FX55` at I..I+X (R51). -/
def Obligations.OnlyTheTwoStoresWriteMemory : Prop :=
  ∀ (s t : State) (a : Nat), step s = .next t → t.mem.read a ≠ s.mem.read a →
    (∃ x, s.runs (.ldB x) ∧ s.base ≤ a ∧ a ≤ s.base + 2) ∨ (∃ x : Reg, s.runs (.ldMemVx x) ∧ s.base ≤ a ∧ a ≤ s.base + x.val)

/-- A step changes the display only by `00E0` or `DXYN`, I only by `ANNN`, `FX1E` or `FX29`, and the call stack only by `2NNN` or
`00EE` (R26, R28, R190). -/
def Obligations.OnlyTheirWritersWriteDisplayIndexAndStack : Prop :=
  ∀ s t : State, step s = .next t →
    (t.disp ≠ s.disp → s.runs .cls ∨ ∃ x y n, s.runs (.drw x y n)) ∧
    (t.I ≠ s.I → (∃ nnn, s.runs (.ldI nnn)) ∨ ∃ x, s.runs (.addI x) ∨ s.runs (.ldF x)) ∧
    (t.stack ≠ s.stack → ∃ nnn, s.runs (.call nnn)) ∧
    (t.sp ≠ s.sp → (∃ nnn, s.runs (.call nnn)) ∨ s.runs .ret)

/-- A step that changes VF runs one of the six flag writers, or names VF as its destination, `FX65` with X = F among these
(R27). -/
def Obligations.OnlyFlagWritersAndItsDestinationWriteVF : Prop :=
  ∀ s t : State, step s = .next t → t.getV VF ≠ s.getV VF →
    (∃ x y, s.runs (.addReg x y) ∨ s.runs (.subReg x y) ∨ s.runs (.subn x y) ∨ s.runs (.shr x) ∨ s.runs (.shl x) ∨
      ∃ n, s.runs (.drw x y n)) ∨
    (∃ nn, s.runs (.ldImm VF nn) ∨ s.runs (.addImm VF nn) ∨ s.runs (.rnd VF nn)) ∨
    (∃ y, s.runs (.ldReg VF y) ∨ s.runs (.orReg VF y) ∨ s.runs (.andReg VF y) ∨ s.runs (.xorReg VF y)) ∨
    s.runs (.ldVxDT VF) ∨ s.runs (.ldVxK VF) ∨ s.runs (.ldVxMem VF)

/-- No step depends on the sound timer: from states that differ in ST alone, the steps give states that differ in ST alone
(R37). -/
def Obligations.NoStepReadsTheSoundTimer : Prop :=
  ∀ (s t : State) (v : Byte), step s = .next t → ∃ w, step (s.setST v) = .next (t.setST w)

/-- No step depends on a stale stack entry: from states that agree on all but the entries at and above `sp`, the steps give such
states (R29, R40). -/
def Obligations.NoStepReadsAStaleStackEntry : Prop :=
  ∀ (s t : State) (st : Vector Word 16), (∀ k : Fin 16, k.val < s.sp.val → st[k.val] = s.stack[k.val]) → step s = .next t →
    ∃ st' : Vector Word 16, step { s with stack := st } = .next { t with stack := st' } ∧
      ∀ k : Fin 16, k.val < t.sp.val → st'[k.val] = t.stack[k.val]

/-- At a jump to its own address every further step leaves the state as it is (R285). -/
def Obligations.TerminalStateStays : Prop :=
  ∀ (s : State) (k : Nat), s.terminal → Host.Core.run Sys2Proof.core k s = .next s

/-! ### Reset and the host ports -/

/-- `new()` and `reset()`: the value of every component, the font table `font` below 80 (its bytes are presumed, log entry 1, and not
spoken of here) and 0 in the rest of memory, whatever the state was (R270 to R272). -/
def Obligations.ResetValues : Prop :=
  (∀ s : State, resetPort s = (newMachine, .ok)) ∧
  (∀ x : Reg, newMachine.getV x = 0) ∧ newMachine.I = 0 ∧ newMachine.pc = 0x200 ∧
  (∀ k : Fin 16, newMachine.stack[k.val] = 0) ∧ newMachine.sp.val = 0 ∧
  font.length = 80 ∧ (∀ a : Fin 80, newMachine.mem.read a.val = font.getD a.val 0) ∧
  (∀ a, 80 ≤ a → newMachine.mem.read a = 0) ∧
  (∀ k, k < 2048 → newMachine.disp.at k = false) ∧ (∀ k : Fin 16, newMachine.keyDown k = false) ∧
  newMachine.DT = 0 ∧ newMachine.ST = 0 ∧ newMachine.fault = none

/-- `load` copies the image to 0x200 and up and writes nothing else, or rejects it whole when it does not fit, whatever the latch
holds (R237, R252). -/
def Obligations.LoadCopiesTheImage : Prop :=
  ∀ (bytes : List Byte) (s : State), s.memCanonical →
    (0x200 + bytes.length ≤ 4096 → ∃ t, loadPort bytes s = (t, .ok) ∧
      (∀ k (h : k < bytes.length), t.mem.read (0x200 + k) = bytes[k]) ∧
      (∀ a, a < 0x200 ∨ 0x200 + bytes.length ≤ a → t.mem.read a = s.mem.read a) ∧ FrameAt [] [.mem] s t) ∧
    (4096 < 0x200 + bytes.length → loadPort bytes s = (s, .rejectLoadSize))

/-- `step(r)` is one step with the byte r on the input; its reply is `ok` or the record of the fault raised (R91, R253). -/
def Obligations.StepPortIsOneStep : Prop :=
  ∀ (r : Byte) (s : State), s.fault = none →
    ∃ t, step (s.withRandom r) = .next t ∧ (stepPort r s).1 = t.withoutRandom ∧
      (stepPort r s).2 = (match s.faultOfStep with | none => .ok | some f => .faulted f)

/-- A tick takes both timers down by 1, saturating at 0, and touches nothing else, the latch not stopping it; its tone is that ST was
exactly 1 (R244 to R246). -/
def Obligations.TickCountsBothTimersDown : Prop :=
  ∀ s : State, ∃ t, tickPort s = (t, .tone (decide (s.ST.toNat = 1))) ∧ t.DT.toNat = s.DT.toNat - 1 ∧
    t.ST.toNat = s.ST.toNat - 1 ∧ FrameAt [] [.DT, .ST] s t

/-- With ST at v, exactly the v-th of any number of ticks gives the tone, and none does when v is 0 (R215, R245). -/
def Obligations.ToneComesOnceAtTheLastTick : Prop :=
  ∀ (s : State) (n : Nat),
    (session (List.replicate n .tickTimers) s).2 = (List.range n).map (fun k => Reply.tone (decide (k + 1 = s.ST.toNat))) ∧
    (session (List.replicate n .tickTimers) s).1.ST.toNat = s.ST.toNat - n

/-- `keypress` sets the key's state and nothing else, whatever the latch holds, or rejects an index of 16 or more with no change
(R237, R254). -/
def Obligations.KeypressSetsOneKey : Prop :=
  ∀ (index : Nat) (pressed : Bool) (s : State),
    (∀ k : Fin 16, index = k.val → ∃ t, keypressPort index pressed s = (t, .ok) ∧ t.keyDown k = pressed ∧
      (∀ j, j ≠ k → t.keyDown j = s.keyDown j) ∧ FrameAt [] [.keys] s t) ∧
    (16 ≤ index → keypressPort index pressed s = (s, .rejectKeyIndex))

/-- After any session that ends in a reset the block is the newly made one, and a snapshot replies with the display and changes
nothing (R255, R256, R271). -/
def Obligations.ResetForgetsTheSession : Prop :=
  ∀ (cs : List HostCall) (s : State),
    (session (cs ++ [.reset]) s).1 = newMachine ∧
    (session (cs ++ [.displaySnapshot]) s).1 = (session cs s).1 ∧
    (session (cs ++ [.displaySnapshot]) s).2 = (session cs s).2 ++ [.display (session cs s).1.disp]
end

