-- ==== Sys2Proof/Laws/State.lean ====
section
/-! SUPPORT. The fields of the state after each named update: one lemma a field and update, true by definition. -/

namespace Sys2Proof.Machine.State

/-! ### General registers -/

/-- Reading a register after a write to one. -/
theorem getV_setV (s : State) (x y : Reg) (v : Byte) : (s.setV x v).getV y = if y = x then v else s.getV y := by
  simp only [getV, setV, Vector.getElem_set]
  by_cases h : y = x
  · simp [h]
  · rw [if_neg (fun e => h (Fin.ext e.symm)), if_neg h]

@[simp] theorem getV_setV_same (s : State) (x : Reg) (v : Byte) : (s.setV x v).getV x = v := by simp [getV_setV]

theorem getV_setV_other (s : State) {x y : Reg} (v : Byte) (h : y ≠ x) : (s.setV x v).getV y = s.getV y := by
  simp [getV_setV, h]

/-- Register files that read alike are equal. -/
theorem V_ext {s t : State} (h : ∀ x, t.getV x = s.getV x) : t.V = s.V :=
  Vector.ext (fun k hk => h ⟨k, hk⟩)

theorem getV_congr {s t : State} (h : t.V = s.V) (x : Reg) : t.getV x = s.getV x := by simp [getV, h]

/-- Writing back what a register holds changes nothing. -/
@[simp] theorem setV_getV (s : State) (x : Reg) : s.setV x (s.getV x) = s := by
  have : (s.setV x (s.getV x)).V = s.V := V_ext (fun y => by simp only [getV_setV]; split <;> simp [*])
  calc s.setV x (s.getV x) = { s with V := (s.setV x (s.getV x)).V } := rfl
    _ = s := by rw [this]

/-- The flag stands in VF whichever register the result went to (R140). -/
@[simp] theorem getV_setResultThenFlag_VF (s : State) (x : Reg) (v : Byte) (c : Bool) :
    (s.setResultThenFlag x v c).getV VF = flagOf c := by simp [setResultThenFlag, setFlag]

theorem getV_setResultThenFlag (s : State) (x y : Reg) (v : Byte) (c : Bool) :
    (s.setResultThenFlag x v c).getV y = if y = VF then flagOf c else if y = x then v else s.getV y := by
  simp only [setResultThenFlag, setFlag, getV_setV]

theorem getV_setFlag (s : State) (y : Reg) (c : Bool) :
    (s.setFlag c).getV y = if y = VF then flagOf c else s.getV y := by simp only [setFlag, getV_setV]

/-! ### Keys -/

theorem keyDown_setKey (s : State) (k j : Fin 16) (down : Bool) :
    (s.setKey k down).keyDown j = if j = k then down else s.keyDown j := by
  simp only [keyDown, setKey, Vector.getElem_set]
  by_cases h : j = k
  · simp [h]
  · rw [if_neg (fun e => h (Fin.ext e.symm)), if_neg h]

/-! ### setV -/

@[simp] theorem I_setV (s : State) (x : Reg) (v : Byte) : (s.setV x v).I = s.I := rfl
@[simp] theorem pc_setV (s : State) (x : Reg) (v : Byte) : (s.setV x v).pc = s.pc := rfl
@[simp] theorem stack_setV (s : State) (x : Reg) (v : Byte) : (s.setV x v).stack = s.stack := rfl
@[simp] theorem sp_setV (s : State) (x : Reg) (v : Byte) : (s.setV x v).sp = s.sp := rfl
@[simp] theorem mem_setV (s : State) (x : Reg) (v : Byte) : (s.setV x v).mem = s.mem := rfl
@[simp] theorem disp_setV (s : State) (x : Reg) (v : Byte) : (s.setV x v).disp = s.disp := rfl
@[simp] theorem keys_setV (s : State) (x : Reg) (v : Byte) : (s.setV x v).keys = s.keys := rfl
@[simp] theorem DT_setV (s : State) (x : Reg) (v : Byte) : (s.setV x v).DT = s.DT := rfl
@[simp] theorem ST_setV (s : State) (x : Reg) (v : Byte) : (s.setV x v).ST = s.ST := rfl
@[simp] theorem fault_setV (s : State) (x : Reg) (v : Byte) : (s.setV x v).fault = s.fault := rfl
@[simp] theorem randomIn_setV (s : State) (x : Reg) (v : Byte) : (s.setV x v).randomIn = s.randomIn := rfl
@[simp] theorem draws_setV (s : State) (x : Reg) (v : Byte) : (s.setV x v).draws = s.draws := rfl

/-! ### setPC -/

@[simp] theorem getV_setPC (s : State) (v : Word) (y : Reg) : (s.setPC v).getV y = s.getV y := rfl
@[simp] theorem V_setPC (s : State) (v : Word) : (s.setPC v).V = s.V := rfl
@[simp] theorem I_setPC (s : State) (v : Word) : (s.setPC v).I = s.I := rfl
@[simp] theorem pc_setPC (s : State) (v : Word) : (s.setPC v).pc = v := rfl
@[simp] theorem stack_setPC (s : State) (v : Word) : (s.setPC v).stack = s.stack := rfl
@[simp] theorem sp_setPC (s : State) (v : Word) : (s.setPC v).sp = s.sp := rfl
@[simp] theorem mem_setPC (s : State) (v : Word) : (s.setPC v).mem = s.mem := rfl
@[simp] theorem disp_setPC (s : State) (v : Word) : (s.setPC v).disp = s.disp := rfl
@[simp] theorem keys_setPC (s : State) (v : Word) : (s.setPC v).keys = s.keys := rfl
@[simp] theorem DT_setPC (s : State) (v : Word) : (s.setPC v).DT = s.DT := rfl
@[simp] theorem ST_setPC (s : State) (v : Word) : (s.setPC v).ST = s.ST := rfl
@[simp] theorem fault_setPC (s : State) (v : Word) : (s.setPC v).fault = s.fault := rfl
@[simp] theorem randomIn_setPC (s : State) (v : Word) : (s.setPC v).randomIn = s.randomIn := rfl
@[simp] theorem draws_setPC (s : State) (v : Word) : (s.setPC v).draws = s.draws := rfl

/-! ### setI -/

@[simp] theorem getV_setI (s : State) (v : Word) (y : Reg) : (s.setI v).getV y = s.getV y := rfl
@[simp] theorem V_setI (s : State) (v : Word) : (s.setI v).V = s.V := rfl
@[simp] theorem I_setI (s : State) (v : Word) : (s.setI v).I = v := rfl
@[simp] theorem pc_setI (s : State) (v : Word) : (s.setI v).pc = s.pc := rfl
@[simp] theorem stack_setI (s : State) (v : Word) : (s.setI v).stack = s.stack := rfl
@[simp] theorem sp_setI (s : State) (v : Word) : (s.setI v).sp = s.sp := rfl
@[simp] theorem mem_setI (s : State) (v : Word) : (s.setI v).mem = s.mem := rfl
@[simp] theorem disp_setI (s : State) (v : Word) : (s.setI v).disp = s.disp := rfl
@[simp] theorem keys_setI (s : State) (v : Word) : (s.setI v).keys = s.keys := rfl
@[simp] theorem DT_setI (s : State) (v : Word) : (s.setI v).DT = s.DT := rfl
@[simp] theorem ST_setI (s : State) (v : Word) : (s.setI v).ST = s.ST := rfl
@[simp] theorem fault_setI (s : State) (v : Word) : (s.setI v).fault = s.fault := rfl
@[simp] theorem randomIn_setI (s : State) (v : Word) : (s.setI v).randomIn = s.randomIn := rfl
@[simp] theorem draws_setI (s : State) (v : Word) : (s.setI v).draws = s.draws := rfl

/-! ### setMem -/

@[simp] theorem getV_setMem (s : State) (m : Memory) (y : Reg) : (s.setMem m).getV y = s.getV y := rfl
@[simp] theorem V_setMem (s : State) (m : Memory) : (s.setMem m).V = s.V := rfl
@[simp] theorem I_setMem (s : State) (m : Memory) : (s.setMem m).I = s.I := rfl
@[simp] theorem pc_setMem (s : State) (m : Memory) : (s.setMem m).pc = s.pc := rfl
@[simp] theorem stack_setMem (s : State) (m : Memory) : (s.setMem m).stack = s.stack := rfl
@[simp] theorem sp_setMem (s : State) (m : Memory) : (s.setMem m).sp = s.sp := rfl
@[simp] theorem mem_setMem (s : State) (m : Memory) : (s.setMem m).mem = m := rfl
@[simp] theorem disp_setMem (s : State) (m : Memory) : (s.setMem m).disp = s.disp := rfl
@[simp] theorem keys_setMem (s : State) (m : Memory) : (s.setMem m).keys = s.keys := rfl
@[simp] theorem DT_setMem (s : State) (m : Memory) : (s.setMem m).DT = s.DT := rfl
@[simp] theorem ST_setMem (s : State) (m : Memory) : (s.setMem m).ST = s.ST := rfl
@[simp] theorem fault_setMem (s : State) (m : Memory) : (s.setMem m).fault = s.fault := rfl
@[simp] theorem randomIn_setMem (s : State) (m : Memory) : (s.setMem m).randomIn = s.randomIn := rfl
@[simp] theorem draws_setMem (s : State) (m : Memory) : (s.setMem m).draws = s.draws := rfl

/-! ### setDisp -/

@[simp] theorem getV_setDisp (s : State) (d : Display) (y : Reg) : (s.setDisp d).getV y = s.getV y := rfl
@[simp] theorem V_setDisp (s : State) (d : Display) : (s.setDisp d).V = s.V := rfl
@[simp] theorem I_setDisp (s : State) (d : Display) : (s.setDisp d).I = s.I := rfl
@[simp] theorem pc_setDisp (s : State) (d : Display) : (s.setDisp d).pc = s.pc := rfl
@[simp] theorem stack_setDisp (s : State) (d : Display) : (s.setDisp d).stack = s.stack := rfl
@[simp] theorem sp_setDisp (s : State) (d : Display) : (s.setDisp d).sp = s.sp := rfl
@[simp] theorem mem_setDisp (s : State) (d : Display) : (s.setDisp d).mem = s.mem := rfl
@[simp] theorem disp_setDisp (s : State) (d : Display) : (s.setDisp d).disp = d := rfl
@[simp] theorem keys_setDisp (s : State) (d : Display) : (s.setDisp d).keys = s.keys := rfl
@[simp] theorem DT_setDisp (s : State) (d : Display) : (s.setDisp d).DT = s.DT := rfl
@[simp] theorem ST_setDisp (s : State) (d : Display) : (s.setDisp d).ST = s.ST := rfl
@[simp] theorem fault_setDisp (s : State) (d : Display) : (s.setDisp d).fault = s.fault := rfl
@[simp] theorem randomIn_setDisp (s : State) (d : Display) : (s.setDisp d).randomIn = s.randomIn := rfl
@[simp] theorem draws_setDisp (s : State) (d : Display) : (s.setDisp d).draws = s.draws := rfl

/-! ### setDT -/

@[simp] theorem getV_setDT (s : State) (v : Byte) (y : Reg) : (s.setDT v).getV y = s.getV y := rfl
@[simp] theorem V_setDT (s : State) (v : Byte) : (s.setDT v).V = s.V := rfl
@[simp] theorem I_setDT (s : State) (v : Byte) : (s.setDT v).I = s.I := rfl
@[simp] theorem pc_setDT (s : State) (v : Byte) : (s.setDT v).pc = s.pc := rfl
@[simp] theorem stack_setDT (s : State) (v : Byte) : (s.setDT v).stack = s.stack := rfl
@[simp] theorem sp_setDT (s : State) (v : Byte) : (s.setDT v).sp = s.sp := rfl
@[simp] theorem mem_setDT (s : State) (v : Byte) : (s.setDT v).mem = s.mem := rfl
@[simp] theorem disp_setDT (s : State) (v : Byte) : (s.setDT v).disp = s.disp := rfl
@[simp] theorem keys_setDT (s : State) (v : Byte) : (s.setDT v).keys = s.keys := rfl
@[simp] theorem DT_setDT (s : State) (v : Byte) : (s.setDT v).DT = v := rfl
@[simp] theorem ST_setDT (s : State) (v : Byte) : (s.setDT v).ST = s.ST := rfl
@[simp] theorem fault_setDT (s : State) (v : Byte) : (s.setDT v).fault = s.fault := rfl
@[simp] theorem randomIn_setDT (s : State) (v : Byte) : (s.setDT v).randomIn = s.randomIn := rfl
@[simp] theorem draws_setDT (s : State) (v : Byte) : (s.setDT v).draws = s.draws := rfl

/-! ### setST -/

@[simp] theorem getV_setST (s : State) (v : Byte) (y : Reg) : (s.setST v).getV y = s.getV y := rfl
@[simp] theorem V_setST (s : State) (v : Byte) : (s.setST v).V = s.V := rfl
@[simp] theorem I_setST (s : State) (v : Byte) : (s.setST v).I = s.I := rfl
@[simp] theorem pc_setST (s : State) (v : Byte) : (s.setST v).pc = s.pc := rfl
@[simp] theorem stack_setST (s : State) (v : Byte) : (s.setST v).stack = s.stack := rfl
@[simp] theorem sp_setST (s : State) (v : Byte) : (s.setST v).sp = s.sp := rfl
@[simp] theorem mem_setST (s : State) (v : Byte) : (s.setST v).mem = s.mem := rfl
@[simp] theorem disp_setST (s : State) (v : Byte) : (s.setST v).disp = s.disp := rfl
@[simp] theorem keys_setST (s : State) (v : Byte) : (s.setST v).keys = s.keys := rfl
@[simp] theorem DT_setST (s : State) (v : Byte) : (s.setST v).DT = s.DT := rfl
@[simp] theorem ST_setST (s : State) (v : Byte) : (s.setST v).ST = v := rfl
@[simp] theorem fault_setST (s : State) (v : Byte) : (s.setST v).fault = s.fault := rfl
@[simp] theorem randomIn_setST (s : State) (v : Byte) : (s.setST v).randomIn = s.randomIn := rfl
@[simp] theorem draws_setST (s : State) (v : Byte) : (s.setST v).draws = s.draws := rfl

/-! ### setKey -/

@[simp] theorem getV_setKey (s : State) (k : Fin 16) (down : Bool) (y : Reg) : (s.setKey k down).getV y = s.getV y := rfl
@[simp] theorem V_setKey (s : State) (k : Fin 16) (down : Bool) : (s.setKey k down).V = s.V := rfl
@[simp] theorem I_setKey (s : State) (k : Fin 16) (down : Bool) : (s.setKey k down).I = s.I := rfl
@[simp] theorem pc_setKey (s : State) (k : Fin 16) (down : Bool) : (s.setKey k down).pc = s.pc := rfl
@[simp] theorem stack_setKey (s : State) (k : Fin 16) (down : Bool) : (s.setKey k down).stack = s.stack := rfl
@[simp] theorem sp_setKey (s : State) (k : Fin 16) (down : Bool) : (s.setKey k down).sp = s.sp := rfl
@[simp] theorem mem_setKey (s : State) (k : Fin 16) (down : Bool) : (s.setKey k down).mem = s.mem := rfl
@[simp] theorem disp_setKey (s : State) (k : Fin 16) (down : Bool) : (s.setKey k down).disp = s.disp := rfl
@[simp] theorem DT_setKey (s : State) (k : Fin 16) (down : Bool) : (s.setKey k down).DT = s.DT := rfl
@[simp] theorem ST_setKey (s : State) (k : Fin 16) (down : Bool) : (s.setKey k down).ST = s.ST := rfl
@[simp] theorem fault_setKey (s : State) (k : Fin 16) (down : Bool) : (s.setKey k down).fault = s.fault := rfl
@[simp] theorem randomIn_setKey (s : State) (k : Fin 16) (down : Bool) : (s.setKey k down).randomIn = s.randomIn := rfl
@[simp] theorem draws_setKey (s : State) (k : Fin 16) (down : Bool) : (s.setKey k down).draws = s.draws := rfl

/-! ### setStack -/

@[simp] theorem getV_setStack (s : State) (st : Vector Word 16) (y : Reg) : (s.setStack st).getV y = s.getV y := rfl
@[simp] theorem V_setStack (s : State) (st : Vector Word 16) : (s.setStack st).V = s.V := rfl
@[simp] theorem I_setStack (s : State) (st : Vector Word 16) : (s.setStack st).I = s.I := rfl
@[simp] theorem pc_setStack (s : State) (st : Vector Word 16) : (s.setStack st).pc = s.pc := rfl
@[simp] theorem stack_setStack (s : State) (st : Vector Word 16) : (s.setStack st).stack = st := rfl
@[simp] theorem sp_setStack (s : State) (st : Vector Word 16) : (s.setStack st).sp = s.sp := rfl
@[simp] theorem mem_setStack (s : State) (st : Vector Word 16) : (s.setStack st).mem = s.mem := rfl
@[simp] theorem disp_setStack (s : State) (st : Vector Word 16) : (s.setStack st).disp = s.disp := rfl
@[simp] theorem keys_setStack (s : State) (st : Vector Word 16) : (s.setStack st).keys = s.keys := rfl
@[simp] theorem DT_setStack (s : State) (st : Vector Word 16) : (s.setStack st).DT = s.DT := rfl
@[simp] theorem ST_setStack (s : State) (st : Vector Word 16) : (s.setStack st).ST = s.ST := rfl
@[simp] theorem fault_setStack (s : State) (st : Vector Word 16) : (s.setStack st).fault = s.fault := rfl
@[simp] theorem randomIn_setStack (s : State) (st : Vector Word 16) : (s.setStack st).randomIn = s.randomIn := rfl
@[simp] theorem draws_setStack (s : State) (st : Vector Word 16) : (s.setStack st).draws = s.draws := rfl

/-! ### setSP -/

@[simp] theorem getV_setSP (s : State) (n : Fin 17) (y : Reg) : (s.setSP n).getV y = s.getV y := rfl
@[simp] theorem V_setSP (s : State) (n : Fin 17) : (s.setSP n).V = s.V := rfl
@[simp] theorem I_setSP (s : State) (n : Fin 17) : (s.setSP n).I = s.I := rfl
@[simp] theorem pc_setSP (s : State) (n : Fin 17) : (s.setSP n).pc = s.pc := rfl
@[simp] theorem stack_setSP (s : State) (n : Fin 17) : (s.setSP n).stack = s.stack := rfl
@[simp] theorem sp_setSP (s : State) (n : Fin 17) : (s.setSP n).sp = n := rfl
@[simp] theorem mem_setSP (s : State) (n : Fin 17) : (s.setSP n).mem = s.mem := rfl
@[simp] theorem disp_setSP (s : State) (n : Fin 17) : (s.setSP n).disp = s.disp := rfl
@[simp] theorem keys_setSP (s : State) (n : Fin 17) : (s.setSP n).keys = s.keys := rfl
@[simp] theorem DT_setSP (s : State) (n : Fin 17) : (s.setSP n).DT = s.DT := rfl
@[simp] theorem ST_setSP (s : State) (n : Fin 17) : (s.setSP n).ST = s.ST := rfl
@[simp] theorem fault_setSP (s : State) (n : Fin 17) : (s.setSP n).fault = s.fault := rfl
@[simp] theorem randomIn_setSP (s : State) (n : Fin 17) : (s.setSP n).randomIn = s.randomIn := rfl
@[simp] theorem draws_setSP (s : State) (n : Fin 17) : (s.setSP n).draws = s.draws := rfl

/-! ### useRandom -/

@[simp] theorem getV_useRandom (s : State) (y : Reg) : (s.useRandom).getV y = s.getV y := rfl
@[simp] theorem V_useRandom (s : State) : (s.useRandom).V = s.V := rfl
@[simp] theorem I_useRandom (s : State) : (s.useRandom).I = s.I := rfl
@[simp] theorem pc_useRandom (s : State) : (s.useRandom).pc = s.pc := rfl
@[simp] theorem stack_useRandom (s : State) : (s.useRandom).stack = s.stack := rfl
@[simp] theorem sp_useRandom (s : State) : (s.useRandom).sp = s.sp := rfl
@[simp] theorem mem_useRandom (s : State) : (s.useRandom).mem = s.mem := rfl
@[simp] theorem disp_useRandom (s : State) : (s.useRandom).disp = s.disp := rfl
@[simp] theorem keys_useRandom (s : State) : (s.useRandom).keys = s.keys := rfl
@[simp] theorem DT_useRandom (s : State) : (s.useRandom).DT = s.DT := rfl
@[simp] theorem ST_useRandom (s : State) : (s.useRandom).ST = s.ST := rfl
@[simp] theorem fault_useRandom (s : State) : (s.useRandom).fault = s.fault := rfl
@[simp] theorem randomIn_useRandom (s : State) : (s.useRandom).randomIn = none := rfl
@[simp] theorem draws_useRandom (s : State) : (s.useRandom).draws = s.draws + 1 := rfl

/-! ### takeFault -/

@[simp] theorem getV_takeFault (s : State) (c : FaultCause) (a : Word) (o : Option Word) (i : FaultInfo) (y : Reg) : (s.takeFault c a o i).getV y = s.getV y := rfl
@[simp] theorem V_takeFault (s : State) (c : FaultCause) (a : Word) (o : Option Word) (i : FaultInfo) : (s.takeFault c a o i).V = s.V := rfl
@[simp] theorem I_takeFault (s : State) (c : FaultCause) (a : Word) (o : Option Word) (i : FaultInfo) : (s.takeFault c a o i).I = s.I := rfl
@[simp] theorem pc_takeFault (s : State) (c : FaultCause) (a : Word) (o : Option Word) (i : FaultInfo) : (s.takeFault c a o i).pc = a := rfl
@[simp] theorem stack_takeFault (s : State) (c : FaultCause) (a : Word) (o : Option Word) (i : FaultInfo) : (s.takeFault c a o i).stack = s.stack := rfl
@[simp] theorem sp_takeFault (s : State) (c : FaultCause) (a : Word) (o : Option Word) (i : FaultInfo) : (s.takeFault c a o i).sp = s.sp := rfl
@[simp] theorem mem_takeFault (s : State) (c : FaultCause) (a : Word) (o : Option Word) (i : FaultInfo) : (s.takeFault c a o i).mem = s.mem := rfl
@[simp] theorem disp_takeFault (s : State) (c : FaultCause) (a : Word) (o : Option Word) (i : FaultInfo) : (s.takeFault c a o i).disp = s.disp := rfl
@[simp] theorem keys_takeFault (s : State) (c : FaultCause) (a : Word) (o : Option Word) (i : FaultInfo) : (s.takeFault c a o i).keys = s.keys := rfl
@[simp] theorem DT_takeFault (s : State) (c : FaultCause) (a : Word) (o : Option Word) (i : FaultInfo) : (s.takeFault c a o i).DT = s.DT := rfl
@[simp] theorem ST_takeFault (s : State) (c : FaultCause) (a : Word) (o : Option Word) (i : FaultInfo) : (s.takeFault c a o i).ST = s.ST := rfl
@[simp] theorem fault_takeFault (s : State) (c : FaultCause) (a : Word) (o : Option Word) (i : FaultInfo) : (s.takeFault c a o i).fault = some ⟨c, a, o, i⟩ := rfl
@[simp] theorem randomIn_takeFault (s : State) (c : FaultCause) (a : Word) (o : Option Word) (i : FaultInfo) : (s.takeFault c a o i).randomIn = s.randomIn := rfl
@[simp] theorem draws_takeFault (s : State) (c : FaultCause) (a : Word) (o : Option Word) (i : FaultInfo) : (s.takeFault c a o i).draws = s.draws := rfl

/-! ### setFlag -/

@[simp] theorem I_setFlag (s : State) (c : Bool) : (s.setFlag c).I = s.I := rfl
@[simp] theorem pc_setFlag (s : State) (c : Bool) : (s.setFlag c).pc = s.pc := rfl
@[simp] theorem stack_setFlag (s : State) (c : Bool) : (s.setFlag c).stack = s.stack := rfl
@[simp] theorem sp_setFlag (s : State) (c : Bool) : (s.setFlag c).sp = s.sp := rfl
@[simp] theorem mem_setFlag (s : State) (c : Bool) : (s.setFlag c).mem = s.mem := rfl
@[simp] theorem disp_setFlag (s : State) (c : Bool) : (s.setFlag c).disp = s.disp := rfl
@[simp] theorem keys_setFlag (s : State) (c : Bool) : (s.setFlag c).keys = s.keys := rfl
@[simp] theorem DT_setFlag (s : State) (c : Bool) : (s.setFlag c).DT = s.DT := rfl
@[simp] theorem ST_setFlag (s : State) (c : Bool) : (s.setFlag c).ST = s.ST := rfl
@[simp] theorem fault_setFlag (s : State) (c : Bool) : (s.setFlag c).fault = s.fault := rfl
@[simp] theorem randomIn_setFlag (s : State) (c : Bool) : (s.setFlag c).randomIn = s.randomIn := rfl
@[simp] theorem draws_setFlag (s : State) (c : Bool) : (s.setFlag c).draws = s.draws := rfl

/-! ### setResultThenFlag -/

@[simp] theorem I_setResultThenFlag (s : State) (x : Reg) (v : Byte) (c : Bool) : (s.setResultThenFlag x v c).I = s.I := rfl
@[simp] theorem pc_setResultThenFlag (s : State) (x : Reg) (v : Byte) (c : Bool) : (s.setResultThenFlag x v c).pc = s.pc := rfl
@[simp] theorem stack_setResultThenFlag (s : State) (x : Reg) (v : Byte) (c : Bool) : (s.setResultThenFlag x v c).stack = s.stack := rfl
@[simp] theorem sp_setResultThenFlag (s : State) (x : Reg) (v : Byte) (c : Bool) : (s.setResultThenFlag x v c).sp = s.sp := rfl
@[simp] theorem mem_setResultThenFlag (s : State) (x : Reg) (v : Byte) (c : Bool) : (s.setResultThenFlag x v c).mem = s.mem := rfl
@[simp] theorem disp_setResultThenFlag (s : State) (x : Reg) (v : Byte) (c : Bool) : (s.setResultThenFlag x v c).disp = s.disp := rfl
@[simp] theorem keys_setResultThenFlag (s : State) (x : Reg) (v : Byte) (c : Bool) : (s.setResultThenFlag x v c).keys = s.keys := rfl
@[simp] theorem DT_setResultThenFlag (s : State) (x : Reg) (v : Byte) (c : Bool) : (s.setResultThenFlag x v c).DT = s.DT := rfl
@[simp] theorem ST_setResultThenFlag (s : State) (x : Reg) (v : Byte) (c : Bool) : (s.setResultThenFlag x v c).ST = s.ST := rfl
@[simp] theorem fault_setResultThenFlag (s : State) (x : Reg) (v : Byte) (c : Bool) : (s.setResultThenFlag x v c).fault = s.fault := rfl
@[simp] theorem randomIn_setResultThenFlag (s : State) (x : Reg) (v : Byte) (c : Bool) : (s.setResultThenFlag x v c).randomIn = s.randomIn := rfl
@[simp] theorem draws_setResultThenFlag (s : State) (x : Reg) (v : Byte) (c : Bool) : (s.setResultThenFlag x v c).draws = s.draws := rfl

/-! ### withRandom -/

@[simp] theorem getV_withRandom (s : State) (r : Byte) (y : Reg) : (s.withRandom r).getV y = s.getV y := rfl
@[simp] theorem V_withRandom (s : State) (r : Byte) : (s.withRandom r).V = s.V := rfl
@[simp] theorem I_withRandom (s : State) (r : Byte) : (s.withRandom r).I = s.I := rfl
@[simp] theorem pc_withRandom (s : State) (r : Byte) : (s.withRandom r).pc = s.pc := rfl
@[simp] theorem stack_withRandom (s : State) (r : Byte) : (s.withRandom r).stack = s.stack := rfl
@[simp] theorem sp_withRandom (s : State) (r : Byte) : (s.withRandom r).sp = s.sp := rfl
@[simp] theorem mem_withRandom (s : State) (r : Byte) : (s.withRandom r).mem = s.mem := rfl
@[simp] theorem disp_withRandom (s : State) (r : Byte) : (s.withRandom r).disp = s.disp := rfl
@[simp] theorem keys_withRandom (s : State) (r : Byte) : (s.withRandom r).keys = s.keys := rfl
@[simp] theorem DT_withRandom (s : State) (r : Byte) : (s.withRandom r).DT = s.DT := rfl
@[simp] theorem ST_withRandom (s : State) (r : Byte) : (s.withRandom r).ST = s.ST := rfl
@[simp] theorem fault_withRandom (s : State) (r : Byte) : (s.withRandom r).fault = s.fault := rfl
@[simp] theorem randomIn_withRandom (s : State) (r : Byte) : (s.withRandom r).randomIn = some r := rfl
@[simp] theorem draws_withRandom (s : State) (r : Byte) : (s.withRandom r).draws = s.draws := rfl

/-! ### withoutRandom -/

@[simp] theorem getV_withoutRandom (s : State) (y : Reg) : (s.withoutRandom).getV y = s.getV y := rfl
@[simp] theorem V_withoutRandom (s : State) : (s.withoutRandom).V = s.V := rfl
@[simp] theorem I_withoutRandom (s : State) : (s.withoutRandom).I = s.I := rfl
@[simp] theorem pc_withoutRandom (s : State) : (s.withoutRandom).pc = s.pc := rfl
@[simp] theorem stack_withoutRandom (s : State) : (s.withoutRandom).stack = s.stack := rfl
@[simp] theorem sp_withoutRandom (s : State) : (s.withoutRandom).sp = s.sp := rfl
@[simp] theorem mem_withoutRandom (s : State) : (s.withoutRandom).mem = s.mem := rfl
@[simp] theorem disp_withoutRandom (s : State) : (s.withoutRandom).disp = s.disp := rfl
@[simp] theorem keys_withoutRandom (s : State) : (s.withoutRandom).keys = s.keys := rfl
@[simp] theorem DT_withoutRandom (s : State) : (s.withoutRandom).DT = s.DT := rfl
@[simp] theorem ST_withoutRandom (s : State) : (s.withoutRandom).ST = s.ST := rfl
@[simp] theorem fault_withoutRandom (s : State) : (s.withoutRandom).fault = s.fault := rfl
@[simp] theorem randomIn_withoutRandom (s : State) : (s.withoutRandom).randomIn = none := rfl
@[simp] theorem draws_withoutRandom (s : State) : (s.withoutRandom).draws = s.draws := rfl

/-! ### fetched -/

@[simp] theorem getV_fetched (s : State) (y : Reg) : (s.fetched).getV y = s.getV y := rfl
@[simp] theorem V_fetched (s : State) : (s.fetched).V = s.V := rfl
@[simp] theorem I_fetched (s : State) : (s.fetched).I = s.I := rfl
@[simp] theorem pc_fetched (s : State) : (s.fetched).pc = s.pc + 2 := rfl
@[simp] theorem stack_fetched (s : State) : (s.fetched).stack = s.stack := rfl
@[simp] theorem sp_fetched (s : State) : (s.fetched).sp = s.sp := rfl
@[simp] theorem mem_fetched (s : State) : (s.fetched).mem = s.mem := rfl
@[simp] theorem disp_fetched (s : State) : (s.fetched).disp = s.disp := rfl
@[simp] theorem keys_fetched (s : State) : (s.fetched).keys = s.keys := rfl
@[simp] theorem DT_fetched (s : State) : (s.fetched).DT = s.DT := rfl
@[simp] theorem ST_fetched (s : State) : (s.fetched).ST = s.ST := rfl
@[simp] theorem fault_fetched (s : State) : (s.fetched).fault = s.fault := rfl
@[simp] theorem randomIn_fetched (s : State) : (s.fetched).randomIn = s.randomIn := rfl
@[simp] theorem draws_fetched (s : State) : (s.fetched).draws = s.draws := rfl

/-! ### The skip -/

theorem skipIf_true (s : State) : s.skipIf true = s.setPC (s.pc + 2) := rfl

theorem skipIf_false (s : State) : s.skipIf false = s := rfl

@[simp] theorem pc_skipIf (s : State) (c : Bool) : (s.skipIf c).pc = if c then s.pc + 2 else s.pc := by
  cases c <;> rfl

@[simp] theorem getV_skipIf (s : State) (c : Bool) (y : Reg) : (s.skipIf c).getV y = s.getV y := by cases c <;> rfl

@[simp] theorem V_skipIf (s : State) (c : Bool) : (s.skipIf c).V = s.V := by cases c <;> rfl
@[simp] theorem I_skipIf (s : State) (c : Bool) : (s.skipIf c).I = s.I := by cases c <;> rfl
@[simp] theorem stack_skipIf (s : State) (c : Bool) : (s.skipIf c).stack = s.stack := by cases c <;> rfl
@[simp] theorem sp_skipIf (s : State) (c : Bool) : (s.skipIf c).sp = s.sp := by cases c <;> rfl
@[simp] theorem mem_skipIf (s : State) (c : Bool) : (s.skipIf c).mem = s.mem := by cases c <;> rfl
@[simp] theorem disp_skipIf (s : State) (c : Bool) : (s.skipIf c).disp = s.disp := by cases c <;> rfl
@[simp] theorem keys_skipIf (s : State) (c : Bool) : (s.skipIf c).keys = s.keys := by cases c <;> rfl
@[simp] theorem DT_skipIf (s : State) (c : Bool) : (s.skipIf c).DT = s.DT := by cases c <;> rfl
@[simp] theorem ST_skipIf (s : State) (c : Bool) : (s.skipIf c).ST = s.ST := by cases c <;> rfl
@[simp] theorem fault_skipIf (s : State) (c : Bool) : (s.skipIf c).fault = s.fault := by cases c <;> rfl
@[simp] theorem randomIn_skipIf (s : State) (c : Bool) : (s.skipIf c).randomIn = s.randomIn := by cases c <;> rfl
@[simp] theorem draws_skipIf (s : State) (c : Bool) : (s.skipIf c).draws = s.draws := by cases c <;> rfl

/-! ### Push and pop -/

/-- A push succeeds exactly when fewer than 16 entries are pushed (R29). -/
theorem push_eq_none_iff (s : State) (v : Word) : s.push v = none ↔ s.sp.val = 16 := by
  have := s.sp.isLt
  unfold push
  split <;> simp <;> omega

theorem push_of_lt (s : State) (v : Word) (h : s.sp.val < 16) :
    s.push v = some ((s.setStack (s.stack.set s.sp.val v)).setSP ⟨s.sp.val + 1, by omega⟩) := by
  simp [push, h]

theorem push_of_full (s : State) (v : Word) (h : s.sp.val = 16) : s.push v = none := (push_eq_none_iff s v).mpr h

/-- A pop succeeds exactly when an entry is pushed (R29). -/
theorem pop_eq_none_iff (s : State) : s.pop = none ↔ s.sp.val = 0 := by
  unfold pop
  split <;> simp <;> omega

theorem pop_of_pos (s : State) (h : 0 < s.sp.val) :
    s.pop = some (s.stack[s.sp.val - 1]'(by have := s.sp.isLt; omega),
      s.setSP ⟨s.sp.val - 1, by have := s.sp.isLt; omega⟩) := by
  simp [pop, h]

theorem pop_of_empty (s : State) (h : s.sp.val = 0) : s.pop = none := (pop_eq_none_iff s).mpr h

/-- All that a push that succeeds does. -/
theorem push_cases {s s' : State} {v : Word} (h : s.push v = some s') :
    ∃ hsp : s.sp.val < 16, s' = (s.setStack (s.stack.set s.sp.val v)).setSP ⟨s.sp.val + 1, by omega⟩ := by
  by_cases hsp : s.sp.val < 16
  · rw [push_of_lt s v hsp] at h
    exact ⟨hsp, (Option.some.inj h).symm⟩
  · have := s.sp.isLt
    rw [push_of_full s v (by omega)] at h
    cases h

/-- All that a pop that succeeds does. -/
theorem pop_cases {s s' : State} {v : Word} (h : s.pop = some (v, s')) :
    ∃ _ : 0 < s.sp.val, v = s.stack[s.sp.val - 1]'(by have := s.sp.isLt; omega) ∧
      s' = s.setSP ⟨s.sp.val - 1, by have := s.sp.isLt; omega⟩ := by
  by_cases hsp : 0 < s.sp.val
  · rw [pop_of_pos s hsp] at h
    have := Option.some.inj h
    exact ⟨hsp, (congrArg Prod.fst this).symm, (congrArg Prod.snd this).symm⟩
  · rw [pop_of_empty s (by omega)] at h
    cases h

end Sys2Proof.Machine.State
end

