-- ==== Sys2Proof/Laws/Display.lean ====
section
/-! SUPPORT. The display and the sprite engine: what one inversion does to a cell, and what a whole sprite does. -/

namespace Sys2Proof.Machine

namespace Display

/-- Two displays whose 64 x 32 cells agree are the same. -/
theorem ext_cells {d d' : Display} (h : ∀ x y, x < 64 → y < 32 → cell d x y = cell d' x y) : d = d' := by
  refine Vector.ext (fun y hy => BitVec.eq_of_getLsbD_eq (fun x hx => ?_))
  have := h x y hx hy
  simpa [cell, hy] using this

/-- Inverting a cell of the grid inverts that cell and no other (R194). -/
theorem cell_invert (d : Display) {x y : Nat} (hx : x < 64) (hy : y < 32) (u v : Nat) :
    cell (d.invert x y) u v = (cell d u v ^^ (decide (u = x) && decide (v = y))) := by
  unfold cell invert
  rw [dif_pos hy]
  by_cases hv : v < 32
  · rw [dif_pos hv, dif_pos hv, Vector.getElem_set]
    by_cases hvy : y = v
    · subst hvy
      rw [if_pos rfl, BitVec.getLsbD_xor, BitVec.getLsbD_shiftLeft, BitVec.getLsbD_one]
      by_cases hu : u = x
      · subst hu; simp [hx]
      · by_cases hlt : u < x
        · simp [hlt, hu]
        · have h0 : u - x ≠ 0 := by omega
          simp [hu, h0]
    · rw [if_neg hvy]
      have : v ≠ y := fun e => hvy e.symm
      simp [this]
  · rw [dif_neg hv, dif_neg hv]
    have : v ≠ y := by omega
    simp [this]

@[simp] theorem cell_clear (x y : Nat) : cell clear x y = false := by
  unfold cell clear
  split <;> simp

theorem at_eq_cell (d : Display) {x : Nat} (y : Nat) (hx : x < 64) : Display.at d (x + 64 * y) = cell d x y := by
  unfold Display.at
  rw [show (x + 64 * y) % 64 = x by omega, show (x + 64 * y) / 64 = y by omega]

end Display

/-- Some set bit of the sprite, from row `j` on, falls on the cell (u, v) (R192, R193). -/
def spriteHits (vx vy j : Nat) (rows : List Byte) (u v : Nat) : Bool :=
  match rows with
  | [] => false
  | row :: rest =>
    spriteColumns.any (fun c => spriteBit row c && decide (u = pixelX vx c) && decide (v = pixelY vy j)) ||
      spriteHits vx vy (j + 1) rest u v

theorem pixelX_lt (vx c : Nat) : pixelX vx c < 64 := Nat.mod_lt _ (by decide)

theorem pixelY_lt (vy j : Nat) : pixelY vy j < 32 := Nat.mod_lt _ (by decide)

/-- The columns `cs` of one sprite row, which fall on distinct cells: each cell they hit is inverted, and a collision is
noted if one of those was on. -/
theorem drawColumns_spec (vx y : Nat) (hy : y < 32) (row : Byte) (cs : List Nat) (hcs : cs.Pairwise (fun a b => pixelX vx a ≠ pixelX vx b))
    (k : Canvas) :
    (∀ u v, (drawColumns vx y row cs k).1.cell u v =
      (k.1.cell u v ^^ cs.any (fun c => spriteBit row c && decide (u = pixelX vx c) && decide (v = y)))) ∧
    (drawColumns vx y row cs k).2 =
      (k.2 || cs.any (fun c => spriteBit row c && k.1.cell (pixelX vx c) y)) := by
  induction cs generalizing k with
  | nil => simp [drawColumns]
  | cons c rest ih =>
    have hp := List.pairwise_cons.mp hcs
    unfold drawColumns
    have ih' := ih hp.2
    by_cases hb : spriteBit row c = true
    · rw [if_pos hb]
      obtain ⟨h1, h2⟩ := ih' (plot (pixelX vx c) y k)
      refine ⟨fun u v => ?_, ?_⟩
      · rw [h1 u v]
        unfold plot
        simp only
        rw [Display.cell_invert _ (pixelX_lt vx c) hy, List.any_cons, hb]
        by_cases hu : u = pixelX vx c ∧ v = y
        · have hr : rest.any (fun c => spriteBit row c && decide (u = pixelX vx c) && decide (v = y)) = false := by
            rw [List.any_eq_false]
            intro e he
            have := hp.1 e he
            simp only [Bool.and_eq_true, decide_eq_true_eq, not_and]
            intro h _
            exact absurd h.2 (by rw [hu.1]; exact this)
          rw [hr]
          simp [hu.1, hu.2]
        · have : (decide (u = pixelX vx c) && decide (v = y)) = false := by
            simp only [Bool.and_eq_false_iff, decide_eq_false_iff_not]
            tauto
          rw [Bool.true_and, this, Bool.false_or]
          simp
      · rw [h2]
        unfold plot
        simp only
        rw [List.any_cons, hb, Bool.true_and, Bool.or_assoc]
        congr 2
        rw [Bool.eq_iff_iff]
        simp only [List.any_eq_true, Bool.and_eq_true]
        have same : ∀ e ∈ rest, (Display.invert k.1 (pixelX vx c) y).cell (pixelX vx e) y = k.1.cell (pixelX vx e) y := by
          intro e he
          rw [Display.cell_invert _ (pixelX_lt vx c) hy]
          have : pixelX vx e ≠ pixelX vx c := fun h => hp.1 e he h.symm
          simp [this]
        constructor
        · rintro ⟨e, he, h⟩
          exact ⟨e, he, h.1, by rw [← same e he]; exact h.2⟩
        · rintro ⟨e, he, h⟩
          exact ⟨e, he, h.1, by rw [same e he]; exact h.2⟩
    · rw [if_neg hb]
      obtain ⟨h1, h2⟩ := ih' k
      have hb' : spriteBit row c = false := by simpa using hb
      refine ⟨fun u v => ?_, ?_⟩
      · rw [h1 u v, List.any_cons, hb']
        simp
      · rw [h2, List.any_cons, hb']
        simp

theorem spriteColumns_distinct (vx : Nat) : spriteColumns.Pairwise (fun a b => pixelX vx a ≠ pixelX vx b) := by
  have h : spriteColumns.Pairwise (fun a b => a < b ∧ b < 8) := by decide
  refine h.imp (fun {a b} hab => ?_)
  simp only [pixelX, Config.dispW]
  omega

/-- A sprite's rows from row `j` on, at most 32 of them: they fall on distinct display rows, each cell hit is inverted, and a
collision is noted exactly if a cell hit was on before (R192 to R195, R198). -/
theorem drawRows_spec (vx vy j : Nat) (rows : List Byte) (hr : rows.length ≤ 32) (k : Canvas) :
    (∀ u v, (drawRows vx vy j rows k).1.cell u v = (k.1.cell u v ^^ spriteHits vx vy j rows u v)) ∧
    ((drawRows vx vy j rows k).2 = true ↔
      k.2 = true ∨ ∃ u v, spriteHits vx vy j rows u v = true ∧ k.1.cell u v = true) := by
  induction rows generalizing j k with
  | nil => simp [drawRows, spriteHits]
  | cons row rest ih =>
    simp only [List.length_cons] at hr
    unfold drawRows
    obtain ⟨c1, c2⟩ := drawColumns_spec vx (pixelY vy j) (pixelY_lt vy j) row spriteColumns (spriteColumns_distinct vx) k
    obtain ⟨h1, h2⟩ := ih (j + 1) (by omega) (drawColumns vx (pixelY vy j) row spriteColumns k)
    -- the later rows fall on other display rows
    have later : ∀ (rs : List Byte) (i : Nat), j < i → i + rs.length ≤ j + 32 → ∀ u,
        spriteHits vx vy i rs u (pixelY vy j) = false := by
      intro rs
      induction rs with
      | nil => intros; rfl
      | cons r rs ihr =>
        intro i hi hl u
        simp only [List.length_cons] at hl
        unfold spriteHits
        rw [ihr (i + 1) (by omega) (by omega) u, Bool.or_false, List.any_eq_false]
        intro c _
        have : pixelY vy j ≠ pixelY vy i := by simp only [pixelY, Config.dispH]; omega
        simp [this]
    have hlater := later rest (j + 1) (by omega) (by omega)
    refine ⟨fun u v => ?_, ?_⟩
    · rw [h1 u v, c1 u v]
      conv_rhs => unfold spriteHits
      by_cases hv : v = pixelY vy j
      · subst hv
        rw [hlater u, Bool.or_false, Bool.xor_false]
      · have : spriteColumns.any (fun c => spriteBit row c && decide (u = pixelX vx c) && decide (v = pixelY vy j)) = false := by
          rw [List.any_eq_false]; intro c _; simp [hv]
        rw [this, Bool.false_or, Bool.xor_false]
    · rw [h2, c2]
      have split : ∀ u v, spriteHits vx vy j (row :: rest) u v = true ↔
          (∃ c ∈ spriteColumns, spriteBit row c = true ∧ u = pixelX vx c ∧ v = pixelY vy j) ∨
            spriteHits vx vy (j + 1) rest u v = true := by
        intro u v
        conv_lhs => unfold spriteHits
        simp only [Bool.or_eq_true, List.any_eq_true, Bool.and_eq_true, decide_eq_true_eq, and_assoc]
      have off : ∀ u v, spriteHits vx vy (j + 1) rest u v = true →
          ((drawColumns vx (pixelY vy j) row spriteColumns k).1.cell u v = true ↔ k.1.cell u v = true) := by
        intro u v hh
        have hv : v ≠ pixelY vy j := by
          rintro rfl
          rw [hlater u] at hh
          cases hh
        rw [c1 u v]
        have : spriteColumns.any (fun c => spriteBit row c && decide (u = pixelX vx c) && decide (v = pixelY vy j)) = false := by
          rw [List.any_eq_false]; intro c _; simp [hv]
        rw [this, Bool.xor_false]
      simp only [Bool.or_eq_true, List.any_eq_true, Bool.and_eq_true]
      constructor
      · rintro ((h | ⟨c, hc, hb, hon⟩) | ⟨u, v, hh, hon⟩)
        · exact .inl h
        · exact .inr ⟨_, _, (split _ _).mpr (.inl ⟨c, hc, hb, rfl, rfl⟩), hon⟩
        · exact .inr ⟨u, v, (split u v).mpr (.inr hh), (off u v hh).mp hon⟩
      · rintro (h | ⟨u, v, hh, hon⟩)
        · exact .inl (.inl h)
        · rcases (split u v).mp hh with ⟨c, hc, hb, hu, hv⟩ | hh'
          · subst hu hv
            exact .inl (.inr ⟨c, hc, hb, hon⟩)
          · exact .inr ⟨u, v, hh', (off u v hh').mpr hon⟩

/-- A set bit hits a cell exactly when some row and column of the sprite say so (R192, R193). -/
theorem spriteHits_iff (vx vy j : Nat) (rows : List Byte) (u v : Nat) :
    spriteHits vx vy j rows u v = true ↔
      ∃ i c, ∃ h : i < rows.length, c < 8 ∧ spriteBit rows[i] c = true ∧ u = pixelX vx c ∧ v = pixelY vy (j + i) := by
  have hcol : ∀ c, c ∈ spriteColumns ↔ c < 8 := by
    intro c; simp [spriteColumns]; omega
  induction rows generalizing j with
  | nil => simp [spriteHits]
  | cons row rest ih =>
    unfold spriteHits
    simp only [Bool.or_eq_true, List.any_eq_true, Bool.and_eq_true, decide_eq_true_eq, ih, hcol]
    constructor
    · rintro (⟨c, hc, ⟨hb, hu⟩, hv⟩ | ⟨i, c, hi, hc, hb, hu, hv⟩)
      · exact ⟨0, c, by simp, hc, hb, hu, hv⟩
      · exact ⟨i + 1, c, by simpa using hi, hc, hb, hu, by rw [hv]; congr 1; omega⟩
    · rintro ⟨i, c, hi, hc, hb, hu, hv⟩
      cases i with
      | zero => exact .inl ⟨c, hc, ⟨hb, hu⟩, hv⟩
      | succ i => exact .inr ⟨i, c, by simpa using hi, hc, hb, hu, by rw [hv]; congr 1; omega⟩

/-- Everything a draw of at most 32 rows does to the display and to the collision flag (R196, R198). -/
theorem drawSprite_spec (vx vy : Byte) (rows : List Byte) (hr : rows.length ≤ 32) (d : Display) :
    (∀ u v, (drawSprite vx vy rows d).1.cell u v = (d.cell u v ^^ spriteHits vx.toNat vy.toNat 0 rows u v)) ∧
    ((drawSprite vx vy rows d).2 = true ↔
      ∃ u v, spriteHits vx.toNat vy.toNat 0 rows u v = true ∧ d.cell u v = true) := by
  obtain ⟨h1, h2⟩ := drawRows_spec vx.toNat vy.toNat 0 rows hr (d, false)
  exact ⟨h1, by simpa [drawSprite] using h2⟩

end Sys2Proof.Machine
end

