-- ==== Sys2Proof/Laws/Encoding.lean ====
section
/-! SUPPORT. Words and their fields: the number of each encoding format, and its fields read back. -/

namespace Sys2Proof

@[simp] theorem wordOfBytes_hi_lo (w : Word) : wordOfBytes (hiByte w) (loByte w) = w := by
  have := w.isLt
  apply BitVec.eq_of_toNat_eq
  simp only [wordOfBytes, hiByte, loByte, BitVec.toNat_ofNat]
  omega

@[simp] theorem hiByte_wordOfBytes (hi lo : Byte) : hiByte (wordOfBytes hi lo) = hi := by
  have := hi.isLt
  have := lo.isLt
  apply BitVec.eq_of_toNat_eq
  simp only [wordOfBytes, hiByte, BitVec.toNat_ofNat]
  omega

@[simp] theorem loByte_wordOfBytes (hi lo : Byte) : loByte (wordOfBytes hi lo) = lo := by
  have := hi.isLt
  have := lo.isLt
  apply BitVec.eq_of_toNat_eq
  simp only [wordOfBytes, loByte, BitVec.toNat_ofNat]
  omega

/-! ### The number of a word of each format -/

theorem toNat_encNNN {op : Nat} (nnn : Word) (h : op < 16) : (encNNN op nnn).toNat = op * 4096 + nnn.toNat % 4096 := by
  simp only [encNNN, BitVec.toNat_ofNat]
  omega

theorem toNat_encXNN {op : Nat} (x : Reg) (nn : Byte) (h : op < 16) :
    (encXNN op x nn).toNat = op * 4096 + x.val * 256 + nn.toNat := by
  have := x.isLt
  have := nn.isLt
  simp only [encXNN, BitVec.toNat_ofNat]
  omega

theorem toNat_encXYN {op : Nat} (x y : Reg) (n : Nat) (h : op < 16) :
    (encXYN op x y n).toNat = op * 4096 + x.val * 256 + y.val * 16 + n % 16 := by
  have := x.isLt
  have := y.isLt
  simp only [encXYN, BitVec.toNat_ofNat]
  omega

theorem toNat_encX {op : Nat} (x : Reg) (sub : Nat) (h : op < 16) (hs : sub < 256) :
    (encX op x sub).toNat = op * 4096 + x.val * 256 + sub := by
  have := x.isLt
  simp only [encX, BitVec.toNat_ofNat]
  omega

/-! ### The fields of a word of each format -/

theorem opD1_encNNN {op : Nat} (nnn : Word) (h : op < 16) : opD1 (encNNN op nnn) = op := by
  unfold opD1; rw [toNat_encNNN nnn h]; omega

theorem opNNN_encNNN {op : Nat} {nnn : Word} (h : op < 16) (hn : nnn.toNat < 4096) : opNNN (encNNN op nnn) = nnn := by
  apply BitVec.eq_of_toNat_eq
  simp only [opNNN, BitVec.toNat_ofNat]
  rw [toNat_encNNN nnn h]
  omega

theorem opD1_encXNN {op : Nat} (x : Reg) (nn : Byte) (h : op < 16) : opD1 (encXNN op x nn) = op := by
  have := x.isLt
  have := nn.isLt
  unfold opD1; rw [toNat_encXNN x nn h]; omega

theorem opX_encXNN {op : Nat} (x : Reg) (nn : Byte) (h : op < 16) : opX (encXNN op x nn) = x := by
  have := x.isLt
  have := nn.isLt
  apply Fin.ext
  simp only [opX]
  rw [toNat_encXNN x nn h]
  omega

theorem opNN_encXNN {op : Nat} (x : Reg) (nn : Byte) (h : op < 16) : opNN (encXNN op x nn) = nn := by
  have := x.isLt
  have := nn.isLt
  apply BitVec.eq_of_toNat_eq
  simp only [opNN, opLow, BitVec.toNat_ofNat]
  rw [toNat_encXNN x nn h]
  omega

theorem opD1_encXYN {op : Nat} (x y : Reg) (n : Nat) (h : op < 16) : opD1 (encXYN op x y n) = op := by
  have := x.isLt
  have := y.isLt
  unfold opD1; rw [toNat_encXYN x y n h]; omega

theorem opX_encXYN {op : Nat} (x y : Reg) (n : Nat) (h : op < 16) : opX (encXYN op x y n) = x := by
  have := x.isLt
  have := y.isLt
  apply Fin.ext
  simp only [opX]
  rw [toNat_encXYN x y n h]
  omega

theorem opY_encXYN {op : Nat} (x y : Reg) (n : Nat) (h : op < 16) : opY (encXYN op x y n) = y := by
  have := x.isLt
  have := y.isLt
  apply Fin.ext
  simp only [opY]
  rw [toNat_encXYN x y n h]
  omega

theorem opN_encXYN {op : Nat} (x y : Reg) (n : Nat) (h : op < 16) : opN (encXYN op x y n) = n % 16 := by
  have := x.isLt
  have := y.isLt
  unfold opN; rw [toNat_encXYN x y n h]; omega

theorem opD1_encX {op : Nat} (x : Reg) (sub : Nat) (h : op < 16) (hs : sub < 256) : opD1 (encX op x sub) = op := by
  have := x.isLt
  unfold opD1; rw [toNat_encX x sub h hs]; omega

theorem opX_encX {op : Nat} (x : Reg) (sub : Nat) (h : op < 16) (hs : sub < 256) : opX (encX op x sub) = x := by
  have := x.isLt
  apply Fin.ext
  simp only [opX]
  rw [toNat_encX x sub h hs]
  omega

theorem opLow_encX {op : Nat} (x : Reg) (sub : Nat) (h : op < 16) (hs : sub < 256) : opLow (encX op x sub) = sub := by
  have := x.isLt
  unfold opLow; rw [toNat_encX x sub h hs]; omega

/-! ### The fields of any word -/

theorem opD1_lt (w : Word) : opD1 w < 16 := by have := w.isLt; unfold opD1; omega

theorem opN_lt (w : Word) : opN w < 16 := Nat.mod_lt _ (by decide)

theorem toNat_opNNN (w : Word) : (opNNN w).toNat = w.toNat % 4096 := by
  simp only [opNNN, BitVec.toNat_ofNat]
  omega

theorem toNat_opNN (w : Word) : (opNN w).toNat = w.toNat % 256 := by
  simp only [opNN, opLow, BitVec.toNat_ofNat]
  omega

end Sys2Proof
end

