-- ==== Sys2Proof/Laws/Memory.lean ====
section
/-! SUPPORT. Memory: what a read gives after a write, and that every write keeps the canonical form. -/

namespace Sys2Proof.Machine

theorem inBounds_iff (a n : Nat) : inBounds a n = true ↔ a + n ≤ 4096 := by simp [inBounds]

theorem inBounds_eq_false_iff (a n : Nat) : inBounds a n = false ↔ 4096 < a + n := by simp [inBounds]

namespace Memory

@[simp] theorem read_nil (a : Nat) : read [] a = unlisted a := rfl

theorem read_cons_cell (b : Nat) (v : Byte) (rest : Memory) (a : Nat) :
    read ((b, v) :: rest) a = if a = b then v else read rest a := rfl

/-- What the canonical form says of its first cell. -/
theorem wfFrom_cons_cell (lo a : Nat) (v : Byte) (rest : Memory) :
    wfFrom lo ((a, v) :: rest) = true ↔
      lo ≤ a ∧ a < 4096 ∧ v ≠ unlisted a ∧ wfFrom (a + 1) rest = true := by
  simp [wfFrom, and_assoc]

theorem wfFrom_mono {lo lo' : Nat} {m : Memory} (h : wfFrom lo m = true) (hle : lo' ≤ lo) : wfFrom lo' m = true := by
  cases m with
  | nil => rfl
  | cons c rest =>
    rw [wfFrom_cons_cell] at h ⊢
    exact ⟨by omega, h.2⟩

/-- An address below all the listed ones reads as its reset byte. -/
theorem read_below {lo : Nat} {m : Memory} (h : wfFrom lo m = true) {a : Nat} (ha : a < lo) :
    read m a = unlisted a := by
  induction m generalizing lo with
  | nil => rfl
  | cons c rest ih =>
    rw [wfFrom_cons_cell] at h
    rw [read_cons_cell, if_neg (by omega)]
    exact ih h.2.2.2 (by omega)

theorem read_cons_other (a : Nat) (v : Byte) (rest : Memory) {c : Nat} (hc : c ≠ a) :
    read (Memory.cons a v rest) c = read rest c := by
  unfold Memory.cons
  split
  · rfl
  · rw [read_cons_cell, if_neg hc]

theorem read_cons_same {a : Nat} (v : Byte) {rest : Memory} (h : wfFrom (a + 1) rest = true) :
    read (Memory.cons a v rest) a = v := by
  unfold Memory.cons
  split
  · rename_i hv
    rw [read_below h (Nat.lt_succ_self a), hv]
  · rw [read_cons_cell, if_pos rfl]

theorem wfFrom_cons {lo a : Nat} (v : Byte) {rest : Memory} (hlo : lo ≤ a) (ha : a < 4096)
    (h : wfFrom (a + 1) rest = true) : wfFrom lo (Memory.cons a v rest) = true := by
  unfold Memory.cons
  split
  · exact wfFrom_mono h (by omega)
  · rename_i hv
    exact (wfFrom_cons_cell lo a v rest).mpr ⟨hlo, ha, hv, h⟩

/-- A write leaves every other address alone (R60). -/
theorem read_write_other (m : Memory) {a c : Nat} (v : Byte) (hc : c ≠ a) :
    read (write m a v) c = read m c := by
  induction m with
  | nil => exact read_cons_other a v [] hc
  | cons cell rest ih =>
    obtain ⟨b, w⟩ := cell
    unfold write
    split
    · exact read_cons_other a v _ hc
    · split
      · rename_i hab
        rw [read_cons_other a v _ hc, read_cons_cell, if_neg (hab ▸ hc)]
      · rw [read_cons_cell, read_cons_cell, ih]

theorem wfFrom_write {lo : Nat} {m : Memory} {a : Nat} (v : Byte) (h : wfFrom lo m = true) (hlo : lo ≤ a)
    (ha : a < 4096) : wfFrom lo (write m a v) = true := by
  induction m generalizing lo with
  | nil => exact wfFrom_cons v hlo ha rfl
  | cons cell rest ih =>
    obtain ⟨b, w⟩ := cell
    have hc := (wfFrom_cons_cell lo b w rest).mp h
    unfold write
    split
    · exact wfFrom_cons v hlo ha ((wfFrom_cons_cell _ b w rest).mpr ⟨by omega, hc.2⟩)
    · split
      · rename_i hab
        exact wfFrom_cons v hlo ha (hab ▸ hc.2.2.2)
      · exact (wfFrom_cons_cell lo b w _).mpr ⟨hc.1, hc.2.1, hc.2.2.1, ih hc.2.2.2 (by omega)⟩

/-- A read after a write to the same address gives the byte written (R60). -/
theorem read_write_same_from {lo : Nat} {m : Memory} {a : Nat} (v : Byte) (h : wfFrom lo m = true) :
    read (write m a v) a = v := by
  induction m generalizing lo with
  | nil => exact read_cons_same v rfl
  | cons cell rest ih =>
    obtain ⟨b, w⟩ := cell
    have hc := (wfFrom_cons_cell lo b w rest).mp h
    unfold write
    split
    · exact read_cons_same v ((wfFrom_cons_cell _ b w rest).mpr ⟨by omega, hc.2⟩)
    · split
      · rename_i hab
        exact read_cons_same v (hab ▸ hc.2.2.2)
      · rename_i hab
        rw [read_cons_cell, if_neg hab, ih hc.2.2.2]

theorem read_write_same {m : Memory} {a : Nat} (v : Byte) (h : m.wf = true) : read (write m a v) a = v :=
  read_write_same_from v h

/-- Writing one byte inside memory keeps the canonical form. -/
theorem wf_write {m : Memory} {a : Nat} (v : Byte) (h : m.wf = true) (ha : a < 4096) : (write m a v).wf = true :=
  wfFrom_write v h (Nat.zero_le a) ha

/-- Writing bytes inside memory keeps the canonical form. -/
theorem wf_writeBytes {m : Memory} {a : Nat} (bs : List Byte) (h : m.wf = true) (ha : a + bs.length ≤ 4096) :
    (writeBytes m a bs).wf = true := by
  induction bs generalizing m a with
  | nil => exact h
  | cons b rest ih =>
    simp only [List.length_cons] at ha
    exact ih (wf_write b h (by omega)) (by omega)

/-- Everything outside the written range reads as before (R60). -/
theorem read_writeBytes_outside (m : Memory) (a : Nat) (bs : List Byte) {c : Nat}
    (hc : c < a ∨ a + bs.length ≤ c) : read (writeBytes m a bs) c = read m c := by
  induction bs generalizing m a with
  | nil => rfl
  | cons b rest ih =>
    simp only [List.length_cons] at hc
    unfold writeBytes
    rw [ih (write m a b) (a + 1) (by omega), read_write_other m b (by omega)]

/-- Byte k of the written range reads as byte k of what was written. -/
theorem read_writeBytes_inside {m : Memory} {a : Nat} {bs : List Byte} (h : m.wf = true)
    (ha : a + bs.length ≤ 4096) (k : Nat) (hk : k < bs.length) : read (writeBytes m a bs) (a + k) = bs[k] := by
  induction bs generalizing m a k with
  | nil => exact absurd hk (Nat.not_lt_zero k)
  | cons b rest ih =>
    simp only [List.length_cons] at ha hk
    unfold writeBytes
    cases k with
    | zero => rw [read_writeBytes_outside _ _ _ (by omega)]; exact read_write_same b h
    | succ j =>
      have := ih (m := write m a b) (a := a + 1) (wf_write b h (by omega)) (by omega) j (by omega)
      rw [show a + (j + 1) = a + 1 + j by omega, this]
      rfl

@[simp] theorem length_readBytes (m : Memory) (a n : Nat) : (readBytes m a n).length = n := by
  induction n generalizing a with
  | zero => rfl
  | succ n ih => simp [readBytes, ih]

theorem getElem_readBytes (m : Memory) (a n k : Nat) (hk : k < (readBytes m a n).length) :
    (readBytes m a n)[k] = read m (a + k) := by
  induction n generalizing a k with
  | zero => simp [readBytes] at hk
  | succ n ih =>
    cases k with
    | zero => rfl
    | succ j =>
      simp only [readBytes, List.getElem_cons_succ]
      rw [ih, show a + 1 + j = a + (j + 1) by omega]

/-- Canonical memories that read alike everywhere are the same list. -/
theorem eq_of_read_eq_from {lo : Nat} {m m' : Memory} (h : wfFrom lo m = true) (h' : wfFrom lo m' = true)
    (hr : ∀ a, read m a = read m' a) : m = m' := by
  induction m generalizing lo m' with
  | nil =>
    cases m' with
    | nil => rfl
    | cons cell rest =>
      obtain ⟨b, w⟩ := cell
      have hc := (wfFrom_cons_cell lo b w rest).mp h'
      have := hr b
      rw [read_nil, read_cons_cell, if_pos rfl] at this
      exact absurd this.symm hc.2.2.1
  | cons cell rest ih =>
    obtain ⟨a, v⟩ := cell
    have hc := (wfFrom_cons_cell lo a v rest).mp h
    have ha : read ((a, v) :: rest) a = v := by rw [read_cons_cell, if_pos rfl]
    cases m' with
    | nil => exact absurd (ha.symm.trans (hr a)) hc.2.2.1
    | cons cell' rest' =>
      obtain ⟨b, w⟩ := cell'
      have hc' := (wfFrom_cons_cell lo b w rest').mp h'
      have hb : read ((b, w) :: rest') b = w := by rw [read_cons_cell, if_pos rfl]
      have hab : a = b := by
        rcases Nat.lt_trichotomy a b with hlt | heq | hgt
        · have := hr a
          rw [ha, read_below ((wfFrom_cons_cell (a + 1) b w rest').mpr ⟨by omega, hc'.2⟩) (by omega)] at this
          exact absurd this hc.2.2.1
        · exact heq
        · have := hr b
          rw [hb, read_below ((wfFrom_cons_cell (b + 1) a v rest).mpr ⟨by omega, hc.2⟩) (by omega)] at this
          exact absurd this.symm hc'.2.2.1
      subst hab
      have hvw : v = w := by rw [← ha, hr a, hb]
      subst hvw
      have : rest = rest' := by
        refine ih hc.2.2.2 hc'.2.2.2 (fun c => ?_)
        by_cases hca : c = a
        · subst hca
          rw [read_below hc.2.2.2 (Nat.lt_succ_self c), read_below hc'.2.2.2 (Nat.lt_succ_self c)]
        · have := hr c
          rwa [read_cons_cell, read_cons_cell, if_neg hca, if_neg hca] at this
      rw [this]

theorem eq_of_read_eq {m m' : Memory} (h : m.wf = true) (h' : m'.wf = true)
    (hr : ∀ a, read m a = read m' a) : m = m' := eq_of_read_eq_from h h' hr

end Memory

end Sys2Proof.Machine
end

