-- ==== Sys2Proof/Laws/Ops.lean ====
section
/-! SUPPORT. The shared operations beside memory: register blocks, the key scan, flag values, operand forms. -/

namespace Sys2Proof.Machine

/-! ### Register blocks -/

theorem mem_allRegs (k : Reg) : k ∈ allRegs := by revert k; decide

theorem mem_blockRegs {x k : Reg} : k ∈ blockRegs x ↔ k.val ≤ x.val := by
  simp [blockRegs, mem_allRegs]

@[simp] theorem length_blockRegs (x : Reg) : (blockRegs x).length = x.val + 1 := by revert x; decide

theorem nodup_blockRegs (x : Reg) : (blockRegs x).Nodup := by revert x; decide

theorem getElem_blockRegs (x : Reg) (k : Nat) (hk : k < (blockRegs x).length) : ((blockRegs x)[k]).val = k := by
  have : ∀ x : Reg, ∀ k : Fin 16, (h : k.val < (blockRegs x).length) → ((blockRegs x)[k.val]).val = k.val := by decide
  have hk' := hk
  rw [length_blockRegs] at hk'
  exact this x ⟨k, by omega⟩ hk

theorem idxOf_blockRegs {x k : Reg} (h : k.val ≤ x.val) : (blockRegs x).idxOf k = k.val := by
  revert x k; decide

/-- Loading registers one after another touches the registers listed and nothing else of the state. -/
theorem State.loadRegs_fields (s : State) (ks : List Reg) (a : Nat) :
    s.loadRegs ks a = { s with V := (s.loadRegs ks a).V } := by
  induction ks generalizing s a with
  | nil => rfl
  | cons k rest ih => unfold State.loadRegs; rw [ih]; rfl

@[simp] theorem State.mem_loadRegs (s : State) (ks : List Reg) (a : Nat) : (s.loadRegs ks a).mem = s.mem := by
  rw [State.loadRegs_fields]

/-- What a register holds after a block of distinct registers has been loaded (R176). -/
theorem State.getV_loadRegs (s : State) {ks : List Reg} (a : Nat) (y : Reg) (hk : ks.Nodup) :
    (s.loadRegs ks a).getV y = if y ∈ ks then s.mem.read (a + ks.idxOf y) else s.getV y := by
  induction ks generalizing s a with
  | nil => rfl
  | cons k rest ih =>
    have hk' := List.nodup_cons.mp hk
    unfold State.loadRegs
    rw [ih (s.setV k (s.mem.read a)) (a + 1) hk'.2, State.mem_setV]
    by_cases hy : y = k
    · subst hy
      simp [hk'.1]
    · by_cases hr : y ∈ rest
      · simp only [hr, if_true, List.mem_cons, or_true]
        rw [List.idxOf_cons_ne rest (fun e => hy e.symm), show a + 1 + rest.idxOf y = a + (rest.idxOf y + 1) by omega]
      · simp [hr, hy, State.getV_setV]

/-- What a register holds after `FX65`'s loads. -/
theorem State.getV_loadBlock (s : State) (x y : Reg) (a : Nat) :
    (s.loadRegs (blockRegs x) a).getV y = if y.val ≤ x.val then s.mem.read (a + y.val) else s.getV y := by
  rw [State.getV_loadRegs s a y (nodup_blockRegs x)]
  by_cases h : y.val ≤ x.val
  · simp [mem_blockRegs, h, idxOf_blockRegs h]
  · simp [mem_blockRegs, h]

/-- The byte that `FX55` stores at `a + k` is that of Vk. -/
theorem read_storeBlock (s : State) (x k : Reg) {a : Nat} (hm : s.mem.wf = true) (ha : a + (x.val + 1) ≤ 4096)
    (hk : k.val ≤ x.val) : (s.mem.writeBytes a ((blockRegs x).map s.getV)).read (a + k.val) = s.getV k := by
  rw [Memory.read_writeBytes_inside hm (by simp; omega) k.val (by simp; omega), List.getElem_map]
  congr 1
  exact Fin.ext (getElem_blockRegs x k.val _)

/-! ### Keys -/

theorem find?_lowest {p : Fin 16 → Bool} {l : List (Fin 16)} (hl : l.Pairwise (· < ·)) {k : Fin 16} :
    l.find? p = some k ↔ k ∈ l ∧ p k = true ∧ ∀ j ∈ l, j < k → p j = false := by
  induction l with
  | nil => simp
  | cons a rest ih =>
    have hc := List.pairwise_cons.mp hl
    by_cases hp : p a = true
    · rw [List.find?_cons_of_pos hp]
      constructor
      · intro h
        have : a = k := Option.some.inj h
        subst this
        refine ⟨by simp, hp, fun j hj hlt => ?_⟩
        rcases List.mem_cons.mp hj with rfl | hj
        · exact absurd hlt (lt_irrefl _)
        · exact absurd hlt (not_lt.mpr (le_of_lt (hc.1 j hj)))
      · rintro ⟨hk, _, hlow⟩
        rcases List.mem_cons.mp hk with rfl | hk
        · rfl
        · have := hlow a (by simp) (hc.1 k hk)
          rw [hp] at this
          cases this
    · rw [List.find?_cons_of_neg hp, ih hc.2]
      constructor
      · rintro ⟨hk, hpk, hlow⟩
        refine ⟨by simp [hk], hpk, fun j hj hlt => ?_⟩
        rcases List.mem_cons.mp hj with rfl | hj
        · simpa using hp
        · exact hlow j hj hlt
      · rintro ⟨hk, hpk, hlow⟩
        rcases List.mem_cons.mp hk with rfl | hk
        · exact absurd hpk hp
        · exact ⟨hk, hpk, fun j hj hlt => hlow j (by simp [hj]) hlt⟩

/-- The scan finds k exactly when k is down and no lower key is (R213). -/
theorem State.lowestKeyDown_eq_some_iff (s : State) (k : Fin 16) :
    s.lowestKeyDown = some k ↔ s.keyDown k = true ∧ ∀ j, j < k → s.keyDown j = false := by
  unfold State.lowestKeyDown
  rw [find?_lowest (by decide)]
  constructor
  · rintro ⟨_, hd, hl⟩
    exact ⟨hd, fun j hj => hl j (mem_allRegs j) hj⟩
  · rintro ⟨hd, hl⟩
    exact ⟨mem_allRegs k, hd, fun j _ hj => hl j hj⟩

/-- The scan finds nothing exactly when every key is up. -/
theorem State.lowestKeyDown_eq_none_iff (s : State) : s.lowestKeyDown = none ↔ ∀ k, s.keyDown k = false := by
  unfold State.lowestKeyDown
  rw [List.find?_eq_none]
  constructor
  · intro h k
    simpa using h k (mem_allRegs k)
  · intro h k _
    simp [h k]

theorem keyIndex_of_lt {v : Byte} (h : v.toNat < 16) : keyIndex v = some ⟨v.toNat, h⟩ := by simp [keyIndex, h]

theorem keyIndex_of_ge {v : Byte} (h : 16 ≤ v.toNat) : keyIndex v = none := by
  simp [keyIndex, Nat.not_lt.mpr h]

/-! ### Flag values and operand forms as numbers (R153, R120, R172 to R174) -/

@[simp] theorem flagOf_true : flagOf true = 1 := rfl

@[simp] theorem flagOf_false : flagOf false = 0 := rfl

theorem toNat_flagOf (c : Bool) : (flagOf c).toNat = if c then 1 else 0 := by cases c <;> rfl

theorem carryOut_iff (a b : Byte) : carryOut a b = true ↔ 256 ≤ a.toNat + b.toNat := by simp [carryOut]

theorem notBorrow_iff (a b : Byte) : notBorrow a b = true ↔ b.toNat ≤ a.toNat := by simp [notBorrow]

theorem droppedLow_iff (v : Byte) : droppedLow v = true ↔ v.toNat % 2 = 1 := by
  simp [droppedLow, BitVec.getLsbD, Nat.testBit_zero]

theorem droppedHigh_iff (v : Byte) : droppedHigh v = true ↔ 128 ≤ v.toNat := by
  have h := v.isLt
  have : v.toNat / 128 < 2 := by omega
  simp only [droppedHigh, BitVec.getLsbD, Nat.testBit, Nat.shiftRight_eq_div_pow, Nat.one_and_eq_mod_two]
  simp only [bne_iff_ne, ne_eq]
  omega

theorem toNat_zextByte (v : Byte) : (zextByte v).toNat = v.toNat := by
  have := v.isLt
  simp only [zextByte, BitVec.toNat_ofNat]
  omega

theorem toNat_glyphAddress (v : Byte) : (glyphAddress v).toNat = v.toNat * 5 := by
  have := v.isLt
  simp only [glyphAddress, BitVec.toNat_ofNat, Config.glyphBytes]
  omega

theorem toNat_offsetTarget (v : Byte) {nnn : Word} (h : nnn.toNat < 4096) :
    (offsetTarget v nnn).toNat = v.toNat + nnn.toNat := by
  have := v.isLt
  simp only [offsetTarget, BitVec.toNat_add, toNat_zextByte]
  omega

theorem toNat_addBytes (a b : Byte) : (a + b).toNat = (a.toNat + b.toNat) % 256 := by
  simp [BitVec.toNat_add]

theorem toNat_subBytes (a b : Byte) : ((a - b).toNat : Int) = ((a.toNat : Int) - b.toNat) % 256 := by
  have := a.isLt
  have := b.isLt
  rw [BitVec.toNat_sub]
  omega

theorem toNat_shiftRightByte (v : Byte) : (v >>> 1).toNat = v.toNat / 2 := by
  simp [BitVec.toNat_ushiftRight, Nat.shiftRight_eq_div_pow]

theorem toNat_shiftLeftByte (v : Byte) : (v <<< 1).toNat = 2 * v.toNat % 256 := by
  simp [BitVec.toNat_shiftLeft, Nat.shiftLeft_eq, Nat.mul_comm]

@[simp] theorem length_decimalDigits (v : Byte) : (decimalDigits v).length = 3 := rfl

/-- The digits spell the byte. -/
theorem decimalDigits_spell (v : Byte) :
    ((decimalDigits v).map BitVec.toNat) = [v.toNat / 100, v.toNat / 10 % 10, v.toNat % 10] := by
  have := v.isLt
  simp only [decimalDigits, List.map_cons, List.map_nil, BitVec.toNat_ofNat]
  congr 1 <;> try omega
  congr 1 <;> try omega
  congr 1; omega

/-! ### The random byte -/

/-- With a byte on the input, that is the byte (R155). -/
theorem State.randomByte_withRandom (s : State) (r : Byte) : (s.withRandom r).randomByte = r := rfl

end Sys2Proof.Machine
end

