-- ==== Sys2Proof/Laws/Exec.lean ====
section
/-! SUPPORT. The instructions with more than one outcome: what each answers in each of its cases. -/

namespace Sys2Proof.Machine

theorem execCall_of_lt (nnn : Word) {s : State} (h : s.sp.val < 16) :
    execCall nnn s = .next (((s.setStack (s.stack.set s.sp.val s.pc)).setSP ⟨s.sp.val + 1, by omega⟩).setPC nnn) := by
  unfold execCall; rw [State.push_of_lt s s.pc h]

theorem execCall_of_full (nnn : Word) {s : State} (h : s.sp.val = 16) :
    execCall nnn s = raiseFault .stackOverflow .none (.call nnn) s := by
  unfold execCall; rw [State.push_of_full s s.pc h]

theorem execRet_of_pos {s : State} (h : 0 < s.sp.val) :
    execRet s = .next ((s.setSP ⟨s.sp.val - 1, by have := s.sp.isLt; omega⟩).setPC
      (s.stack[s.sp.val - 1]'(by have := s.sp.isLt; omega))) := by
  unfold execRet; rw [State.pop_of_pos s h]

theorem execRet_of_empty {s : State} (h : s.sp.val = 0) : execRet s = raiseFault .stackUnderflow .none .ret s := by
  unfold execRet; rw [State.pop_of_empty s h]

theorem execLdB_of_le (x : Reg) {s : State} (h : s.base + 3 ≤ 4096) :
    execLdB x s = .next (s.setMem (s.mem.writeBytes s.base (decimalDigits (s.getV x)))) := by
  unfold execLdB; rw [if_pos ((inBounds_iff _ _).mpr h)]

theorem execLdB_of_gt (x : Reg) {s : State} (h : 4096 < s.base + 3) :
    execLdB x s = raiseFault .memoryOutOfBounds (.range s.I 3) (.ldB x) s := by
  unfold execLdB; rw [if_neg (by rw [inBounds_iff]; omega)]

theorem execLdMemVx_of_le (x : Reg) {s : State} (h : s.base + (x.val + 1) ≤ 4096) :
    execLdMemVx x s = .next (s.setMem (s.mem.writeBytes s.base ((blockRegs x).map s.getV))) := by
  unfold execLdMemVx; rw [if_pos ((inBounds_iff _ _).mpr h)]

theorem execLdMemVx_of_gt (x : Reg) {s : State} (h : 4096 < s.base + (x.val + 1)) :
    execLdMemVx x s = raiseFault .memoryOutOfBounds (.range s.I (x.val + 1)) (.ldMemVx x) s := by
  unfold execLdMemVx; rw [if_neg (by rw [inBounds_iff]; omega)]

theorem execLdVxMem_of_le (x : Reg) {s : State} (h : s.base + (x.val + 1) ≤ 4096) :
    execLdVxMem x s = .next (s.loadRegs (blockRegs x) s.base) := by
  unfold execLdVxMem; rw [if_pos ((inBounds_iff _ _).mpr h)]

theorem execLdVxMem_of_gt (x : Reg) {s : State} (h : 4096 < s.base + (x.val + 1)) :
    execLdVxMem x s = raiseFault .memoryOutOfBounds (.range s.I (x.val + 1)) (.ldVxMem x) s := by
  unfold execLdVxMem; rw [if_neg (by rw [inBounds_iff]; omega)]

theorem execDrw_of_le (x y : Reg) {n : Nat} {s : State} (h : n = 0 ∨ s.base + n ≤ 4096) :
    execDrw x y n s =
      .next ((s.setDisp (drawSprite (s.getV x) (s.getV y) (s.mem.readBytes s.base n) s.disp).1).setFlag
        (drawSprite (s.getV x) (s.getV y) (s.mem.readBytes s.base n) s.disp).2) := by
  unfold execDrw; rw [if_pos (by rw [inBounds_iff]; exact h)]

theorem execDrw_of_gt (x y : Reg) {n : Nat} {s : State} (hn : 0 < n) (h : 4096 < s.base + n) :
    execDrw x y n s = raiseFault .memoryOutOfBounds (.range s.I n) (.drw x y n) s := by
  unfold execDrw; rw [if_neg (by rw [inBounds_iff]; omega)]

theorem execSkp_of_lt {x : Reg} {s : State} (h : (s.getV x).toNat < 16) :
    execSkp x s = .next (s.skipIf (s.keyDown ⟨(s.getV x).toNat, h⟩)) := by
  unfold execSkp; rw [keyIndex_of_lt h]

theorem execSkp_of_ge {x : Reg} {s : State} (h : 16 ≤ (s.getV x).toNat) :
    execSkp x s = raiseFault .keyIndexOutOfRange (.key (s.getV x)) (.skp x) s := by
  unfold execSkp; rw [keyIndex_of_ge h]

theorem execSknp_of_lt {x : Reg} {s : State} (h : (s.getV x).toNat < 16) :
    execSknp x s = .next (s.skipIf (!s.keyDown ⟨(s.getV x).toNat, h⟩)) := by
  unfold execSknp; rw [keyIndex_of_lt h]

theorem execSknp_of_ge {x : Reg} {s : State} (h : 16 ≤ (s.getV x).toNat) :
    execSknp x s = raiseFault .keyIndexOutOfRange (.key (s.getV x)) (.sknp x) s := by
  unfold execSknp; rw [keyIndex_of_ge h]

theorem execLdVxK_of_down (x : Reg) {s : State} {k : Fin 16} (h : s.lowestKeyDown = some k) :
    execLdVxK x s = .next (s.setV x (BitVec.ofNat 8 k.val)) := by
  unfold execLdVxK; rw [h]

theorem execLdVxK_of_up (x : Reg) {s : State} (h : ∀ k, s.keyDown k = false) :
    execLdVxK x s = .next (s.setPC (s.pc - 2)) := by
  unfold execLdVxK; rw [(State.lowestKeyDown_eq_none_iff s).mpr h]

/-- All that an execution with a next state does to memory: nothing, or one of the two stores, whole and in bounds (R51, R58). -/
theorem exec_mem_cases {i : Instr} {s t : State} (h : exec i s = .next t) :
    t.mem = s.mem ∨
    (∃ x, i = .ldB x ∧ s.base + 3 ≤ 4096 ∧ t.mem = s.mem.writeBytes s.base (decimalDigits (s.getV x))) ∨
    (∃ x, i = .ldMemVx x ∧ s.base + (x.val + 1) ≤ 4096 ∧ t.mem = s.mem.writeBytes s.base ((blockRegs x).map s.getV)) := by
  cases i with
  | ldB x =>
    by_cases hb : s.base + 3 ≤ 4096
    · rw [show exec (.ldB x) s = execLdB x s from rfl, execLdB_of_le x hb] at h
      obtain rfl := Host.Outcome.next.inj h
      exact .inr (.inl ⟨x, rfl, hb, rfl⟩)
    · rw [show exec (.ldB x) s = execLdB x s from rfl, execLdB_of_gt x (by omega)] at h
      obtain rfl := Host.Outcome.next.inj h
      exact .inl rfl
  | ldMemVx x =>
    by_cases hb : s.base + (x.val + 1) ≤ 4096
    · rw [show exec (.ldMemVx x) s = execLdMemVx x s from rfl, execLdMemVx_of_le x hb] at h
      obtain rfl := Host.Outcome.next.inj h
      exact .inr (.inr ⟨x, rfl, hb, rfl⟩)
    · rw [show exec (.ldMemVx x) s = execLdMemVx x s from rfl, execLdMemVx_of_gt x (by omega)] at h
      obtain rfl := Host.Outcome.next.inj h
      exact .inl rfl
  | ldVxMem x =>
    by_cases hb : s.base + (x.val + 1) ≤ 4096
    · rw [show exec (.ldVxMem x) s = execLdVxMem x s from rfl, execLdVxMem_of_le x hb] at h
      obtain rfl := Host.Outcome.next.inj h
      exact .inl (State.mem_loadRegs _ _ _)
    · rw [show exec (.ldVxMem x) s = execLdVxMem x s from rfl, execLdVxMem_of_gt x (by omega)] at h
      obtain rfl := Host.Outcome.next.inj h
      exact .inl rfl
  | drw x y n =>
    simp only [exec, execDrw] at h
    split at h <;> (obtain rfl := Host.Outcome.next.inj h; exact .inl rfl)
  | call nnn =>
    simp only [exec, execCall] at h
    split at h
    · rename_i s' hp
      obtain ⟨_, rfl⟩ := State.push_cases hp
      obtain rfl := Host.Outcome.next.inj h
      exact .inl rfl
    · obtain rfl := Host.Outcome.next.inj h; exact .inl rfl
  | ret =>
    simp only [exec, execRet] at h
    split at h
    · rename_i v s' hp
      obtain ⟨_, _, rfl⟩ := State.pop_cases hp
      obtain rfl := Host.Outcome.next.inj h
      exact .inl rfl
    · obtain rfl := Host.Outcome.next.inj h; exact .inl rfl
  | skp x =>
    simp only [exec, execSkp] at h
    split at h <;> (obtain rfl := Host.Outcome.next.inj h; exact .inl (by simp))
  | sknp x =>
    simp only [exec, execSknp] at h
    split at h <;> (obtain rfl := Host.Outcome.next.inj h; exact .inl (by simp))
  | ldVxK x =>
    simp only [exec, execLdVxK] at h
    split at h <;> (obtain rfl := Host.Outcome.next.inj h; exact .inl rfl)
  | seImm | sneImm | seReg | sneReg => obtain rfl := Host.Outcome.next.inj h; exact .inl (by simp)
  | nop | cls | jp | ldImm | addImm | ldReg | orReg | andReg | xorReg | addReg | subReg | shr | subn | shl | ldI | jpV0
  | rnd | ldVxDT | ldDTVx | ldSTVx | addI | ldF => obtain rfl := Host.Outcome.next.inj h; exact .inl rfl

/-- No meaning ends in a fault or a refusal: an execution always has a next state, that of a fault taken among these (R90, R234). -/
theorem exec_next (i : Instr) (s : State) : ∃ t, exec i s = .next t := by
  cases i <;> simp only [exec, execCall, execRet, execLdB, execLdMemVx, execLdVxMem, execDrw, execSkp, execSknp, execLdVxK, raiseFault]
  all_goals first | exact ⟨_, rfl⟩ | (split <;> exact ⟨_, rfl⟩)

/-- Which instructions can write each part of the state beside the general registers, the pc, memory, the latch and the random
input. -/
theorem exec_part_writers {i : Instr} {s t : State} (h : exec i s = .next t) :
    t.keys = s.keys ∧ (t.DT = s.DT ∨ ∃ x, i = .ldDTVx x) ∧ (t.ST = s.ST ∨ ∃ x, i = .ldSTVx x) ∧
    (t.disp = s.disp ∨ i = .cls ∨ ∃ x y n, i = .drw x y n) ∧
    (t.I = s.I ∨ (∃ n, i = .ldI n) ∨ ∃ x, i = .addI x ∨ i = .ldF x) ∧
    (t.stack = s.stack ∨ ∃ n, i = .call n) ∧ (t.sp = s.sp ∨ (∃ n, i = .call n) ∨ i = .ret) := by
  cases i <;> simp only [exec, execNop, execCls, execRet, execJp, execCall, execSeImm, execSneImm, execSeReg, execSneReg, execJpV0, execSkp, execSknp, execLdVxK, execDrw, execLdB, execLdMemVx, execLdVxMem, execLdImm, execAddImm, execLdReg, execOrReg, execAndReg, execXorReg, execAddReg, execSubReg, execShr, execSubn, execShl, execRnd, execLdI, execAddI, execLdF, execLdVxDT, execLdDTVx, execLdSTVx, raiseFault] at h
  case ret =>
    split at h
    · rename_i v s' hp
      obtain ⟨_, _, rfl⟩ := State.pop_cases hp
      obtain rfl := Host.Outcome.next.inj h; simp
    · obtain rfl := Host.Outcome.next.inj h; simp
  case call nnn =>
    split at h
    · rename_i s' hp
      obtain ⟨_, rfl⟩ := State.push_cases hp
      obtain rfl := Host.Outcome.next.inj h; simp
    · obtain rfl := Host.Outcome.next.inj h; simp
  case ldVxMem x =>
    split at h
    · obtain rfl := Host.Outcome.next.inj h; rw [State.loadRegs_fields]; simp
    · obtain rfl := Host.Outcome.next.inj h; simp
  all_goals first
    | (obtain rfl := Host.Outcome.next.inj h; simp)
    | (split at h <;> (obtain rfl := Host.Outcome.next.inj h; simp))

end Sys2Proof.Machine
end

