-- ==== Sys2Proof/Laws/PerInstr.lean ====
section
/-! SUPPORT. One lemma per instruction: the fixed bits of its word are those of its row of spec/opcode_table.json. -/

namespace Sys2Proof.Laws

/-- A run of fixed bits of an opcode-table row: bits hi down to lo hold value. -/
structure FixedBits where
  hi : Nat
  lo : Nat
  value : Nat
  deriving DecidableEq, Repr

/-- The "fixed" entries of each instruction's row of spec/opcode_table.json. -/
def fixedBits (i : Instr) : List FixedBits :=
  match i with
  | .nop => [⟨15, 0, 0⟩]
  | .cls => [⟨15, 0, 224⟩]
  | .ret => [⟨15, 0, 238⟩]
  | .jp _ => [⟨15, 12, 1⟩]
  | .call _ => [⟨15, 12, 2⟩]
  | .seImm _ _ => [⟨15, 12, 3⟩]
  | .sneImm _ _ => [⟨15, 12, 4⟩]
  | .seReg _ _ => [⟨3, 0, 0⟩, ⟨15, 12, 5⟩]
  | .ldImm _ _ => [⟨15, 12, 6⟩]
  | .addImm _ _ => [⟨15, 12, 7⟩]
  | .ldReg _ _ => [⟨3, 0, 0⟩, ⟨15, 12, 8⟩]
  | .orReg _ _ => [⟨3, 0, 1⟩, ⟨15, 12, 8⟩]
  | .andReg _ _ => [⟨3, 0, 2⟩, ⟨15, 12, 8⟩]
  | .xorReg _ _ => [⟨3, 0, 3⟩, ⟨15, 12, 8⟩]
  | .addReg _ _ => [⟨3, 0, 4⟩, ⟨15, 12, 8⟩]
  | .subReg _ _ => [⟨3, 0, 5⟩, ⟨15, 12, 8⟩]
  | .shr _ => [⟨3, 0, 6⟩, ⟨15, 12, 8⟩]
  | .subn _ _ => [⟨3, 0, 7⟩, ⟨15, 12, 8⟩]
  | .shl _ => [⟨3, 0, 14⟩, ⟨15, 12, 8⟩]
  | .sneReg _ _ => [⟨3, 0, 0⟩, ⟨15, 12, 9⟩]
  | .ldI _ => [⟨15, 12, 10⟩]
  | .jpV0 _ => [⟨15, 12, 11⟩]
  | .rnd _ _ => [⟨15, 12, 12⟩]
  | .drw _ _ _ => [⟨15, 12, 13⟩]
  | .skp _ => [⟨7, 0, 158⟩, ⟨15, 12, 14⟩]
  | .sknp _ => [⟨7, 0, 161⟩, ⟨15, 12, 14⟩]
  | .ldVxDT _ => [⟨7, 0, 7⟩, ⟨15, 12, 15⟩]
  | .ldVxK _ => [⟨7, 0, 10⟩, ⟨15, 12, 15⟩]
  | .ldDTVx _ => [⟨7, 0, 21⟩, ⟨15, 12, 15⟩]
  | .ldSTVx _ => [⟨7, 0, 24⟩, ⟨15, 12, 15⟩]
  | .addI _ => [⟨7, 0, 30⟩, ⟨15, 12, 15⟩]
  | .ldF _ => [⟨7, 0, 41⟩, ⟨15, 12, 15⟩]
  | .ldB _ => [⟨7, 0, 51⟩, ⟨15, 12, 15⟩]
  | .ldMemVx _ => [⟨7, 0, 85⟩, ⟨15, 12, 15⟩]
  | .ldVxMem _ => [⟨7, 0, 101⟩, ⟨15, 12, 15⟩]

namespace EncodingFitsRow

/-- A word holds a run of fixed bits. -/
def Holds (w : Word) (f : FixedBits) : Prop := w.toNat / 2 ^ f.lo % 2 ^ (f.hi + 1 - f.lo) = f.value

/-- The word of `i` holds every fixed bit of its row. -/
def Statement (i : Instr) : Prop := ∀ f ∈ fixedBits i, Holds (encode i) f

/-- A word whose first nibble is `op` holds those four fixed bits. -/
theorem holds_d1 {w : Word} {op : Nat} (h : opD1 w = op) : ∀ f ∈ [FixedBits.mk 15 12 op], Holds w f := by
  have := w.isLt
  intro f hf
  rw [List.mem_singleton] at hf
  subst hf h
  simp only [Holds, opD1]
  omega

/-- A word whose last nibble is `n` and whose first is `op` holds those eight fixed bits. -/
theorem holds_d4_d1 {w : Word} {op n : Nat} (h4 : opN w = n) (h1 : opD1 w = op) :
    ∀ f ∈ [FixedBits.mk 3 0 n, FixedBits.mk 15 12 op], Holds w f := by
  intro f hf
  rcases List.mem_cons.mp hf with rfl | hf
  · subst h4
    simp only [Holds, opN]
    omega
  · exact holds_d1 h1 f hf

/-- A word whose low byte is `sub` and whose first nibble is `op` holds those twelve fixed bits. -/
theorem holds_low_d1 {w : Word} {op sub : Nat} (hl : opLow w = sub) (h1 : opD1 w = op) :
    ∀ f ∈ [FixedBits.mk 7 0 sub, FixedBits.mk 15 12 op], Holds w f := by
  intro f hf
  rcases List.mem_cons.mp hf with rfl | hf
  · subst hl
    simp only [Holds, opLow]
    omega
  · exact holds_d1 h1 f hf

theorem nop : Statement .nop := by unfold Statement Holds; decide

theorem cls : Statement .cls := by unfold Statement Holds; decide

theorem ret : Statement .ret := by unfold Statement Holds; decide

theorem jp (nnn : Word) : Statement (.jp nnn) := 
  holds_d1 (opD1_encNNN nnn (by decide))

theorem call (nnn : Word) : Statement (.call nnn) := 
  holds_d1 (opD1_encNNN nnn (by decide))

theorem seImm (x : Reg) (nn : Byte) : Statement (.seImm x nn) := 
  holds_d1 (opD1_encXNN x nn (by decide))

theorem sneImm (x : Reg) (nn : Byte) : Statement (.sneImm x nn) := 
  holds_d1 (opD1_encXNN x nn (by decide))

theorem seReg (x : Reg) (y : Reg) : Statement (.seReg x y) := 
  holds_d4_d1 (opN_encXYN x y 0 (by decide)) (opD1_encXYN x y 0 (by decide))

theorem ldImm (x : Reg) (nn : Byte) : Statement (.ldImm x nn) := 
  holds_d1 (opD1_encXNN x nn (by decide))

theorem addImm (x : Reg) (nn : Byte) : Statement (.addImm x nn) := 
  holds_d1 (opD1_encXNN x nn (by decide))

theorem ldReg (x : Reg) (y : Reg) : Statement (.ldReg x y) := 
  holds_d4_d1 (opN_encXYN x y 0 (by decide)) (opD1_encXYN x y 0 (by decide))

theorem orReg (x : Reg) (y : Reg) : Statement (.orReg x y) := 
  holds_d4_d1 (opN_encXYN x y 1 (by decide)) (opD1_encXYN x y 1 (by decide))

theorem andReg (x : Reg) (y : Reg) : Statement (.andReg x y) := 
  holds_d4_d1 (opN_encXYN x y 2 (by decide)) (opD1_encXYN x y 2 (by decide))

theorem xorReg (x : Reg) (y : Reg) : Statement (.xorReg x y) := 
  holds_d4_d1 (opN_encXYN x y 3 (by decide)) (opD1_encXYN x y 3 (by decide))

theorem addReg (x : Reg) (y : Reg) : Statement (.addReg x y) := 
  holds_d4_d1 (opN_encXYN x y 4 (by decide)) (opD1_encXYN x y 4 (by decide))

theorem subReg (x : Reg) (y : Reg) : Statement (.subReg x y) := 
  holds_d4_d1 (opN_encXYN x y 5 (by decide)) (opD1_encXYN x y 5 (by decide))

theorem shr (x : Reg) : Statement (.shr x) := 
  holds_d4_d1 (opN_encXYN x 0 6 (by decide)) (opD1_encXYN x 0 6 (by decide))

theorem subn (x : Reg) (y : Reg) : Statement (.subn x y) := 
  holds_d4_d1 (opN_encXYN x y 7 (by decide)) (opD1_encXYN x y 7 (by decide))

theorem shl (x : Reg) : Statement (.shl x) := 
  holds_d4_d1 (opN_encXYN x 0 14 (by decide)) (opD1_encXYN x 0 14 (by decide))

theorem sneReg (x : Reg) (y : Reg) : Statement (.sneReg x y) := 
  holds_d4_d1 (opN_encXYN x y 0 (by decide)) (opD1_encXYN x y 0 (by decide))

theorem ldI (nnn : Word) : Statement (.ldI nnn) := 
  holds_d1 (opD1_encNNN nnn (by decide))

theorem jpV0 (nnn : Word) : Statement (.jpV0 nnn) := 
  holds_d1 (opD1_encNNN nnn (by decide))

theorem rnd (x : Reg) (nn : Byte) : Statement (.rnd x nn) := 
  holds_d1 (opD1_encXNN x nn (by decide))

theorem drw (x : Reg) (y : Reg) (n : Nat) : Statement (.drw x y n) := 
  holds_d1 (opD1_encXYN x y n (by decide))

theorem skp (x : Reg) : Statement (.skp x) := 
  holds_low_d1 (opLow_encX x 158 (by decide) (by decide)) (opD1_encX x 158 (by decide) (by decide))

theorem sknp (x : Reg) : Statement (.sknp x) := 
  holds_low_d1 (opLow_encX x 161 (by decide) (by decide)) (opD1_encX x 161 (by decide) (by decide))

theorem ldVxDT (x : Reg) : Statement (.ldVxDT x) := 
  holds_low_d1 (opLow_encX x 7 (by decide) (by decide)) (opD1_encX x 7 (by decide) (by decide))

theorem ldVxK (x : Reg) : Statement (.ldVxK x) := 
  holds_low_d1 (opLow_encX x 10 (by decide) (by decide)) (opD1_encX x 10 (by decide) (by decide))

theorem ldDTVx (x : Reg) : Statement (.ldDTVx x) := 
  holds_low_d1 (opLow_encX x 21 (by decide) (by decide)) (opD1_encX x 21 (by decide) (by decide))

theorem ldSTVx (x : Reg) : Statement (.ldSTVx x) := 
  holds_low_d1 (opLow_encX x 24 (by decide) (by decide)) (opD1_encX x 24 (by decide) (by decide))

theorem addI (x : Reg) : Statement (.addI x) := 
  holds_low_d1 (opLow_encX x 30 (by decide) (by decide)) (opD1_encX x 30 (by decide) (by decide))

theorem ldF (x : Reg) : Statement (.ldF x) := 
  holds_low_d1 (opLow_encX x 41 (by decide) (by decide)) (opD1_encX x 41 (by decide) (by decide))

theorem ldB (x : Reg) : Statement (.ldB x) := 
  holds_low_d1 (opLow_encX x 51 (by decide) (by decide)) (opD1_encX x 51 (by decide) (by decide))

theorem ldMemVx (x : Reg) : Statement (.ldMemVx x) := 
  holds_low_d1 (opLow_encX x 85 (by decide) (by decide)) (opD1_encX x 85 (by decide) (by decide))

theorem ldVxMem (x : Reg) : Statement (.ldVxMem x) := 
  holds_low_d1 (opLow_encX x 101 (by decide) (by decide)) (opD1_encX x 101 (by decide) (by decide))

end EncodingFitsRow

end Sys2Proof.Laws
end

