-- ==== Sys2Proof/Laws/Step.lean ====
section
/-! SUPPORT. The step: the fetched word, and all that a step can do. -/

namespace Sys2Proof.Machine

/-- The fetch reads the two bytes at the pc, the lower address high, exactly when both are inside memory (R82, R83). -/
theorem State.fetchWord_eq (s : State) :
    s.fetchWord = if s.pc.toNat ≤ 4094 then some (BitVec.ofNat 16 s.wordAtPC) else none := by
  unfold State.fetchWord State.wordAtPC wordOfBytes
  by_cases h : s.pc.toNat ≤ 4094
  · rw [if_pos h, if_pos ((inBounds_iff _ _).mpr (by omega))]
  · rw [if_neg h, if_neg (by rw [inBounds_iff]; omega)]

theorem State.fetchWord_of_le {s : State} (h : s.pc.toNat ≤ 4094) : s.fetchWord = some (BitVec.ofNat 16 s.wordAtPC) := by
  rw [State.fetchWord_eq, if_pos h]

theorem State.fetchWord_of_gt {s : State} (h : 4095 ≤ s.pc.toNat) : s.fetchWord = none := by
  rw [State.fetchWord_eq, if_neg (by omega)]

theorem State.wordAtPC_lt (s : State) : s.wordAtPC < 65536 := by
  have := (s.mem.read s.pc.toNat).isLt
  have := (s.mem.read (s.pc.toNat + 1)).isLt
  unfold State.wordAtPC
  omega

/-- A latched block gives no next state (R235). -/
theorem step_of_latched {s : State} {r : FaultRecord} (h : s.fault = some r) : step s = .fault (.latched r) := by
  unfold step; rw [h]

/-- A step whose pc is outside memory. -/
theorem step_of_fetchFault {s : State} (h : s.fault = none) (hpc : 4095 ≤ s.pc.toNat) : step s = .next s.fetchFault := by
  unfold step; rw [h, State.fetchWord_of_gt hpc]

/-- A step of an illegal word. -/
theorem step_of_illegal {s : State} {e : DecodeError} (h : s.fault = none) (hpc : s.pc.toNat ≤ 4094)
    (hd : decodeWord (BitVec.ofNat 16 s.wordAtPC) = .error e) :
    step s = .next (s.decodeFault (BitVec.ofNat 16 s.wordAtPC)) := by
  unfold step; rw [h, State.fetchWord_of_le hpc]; simp only [hd]

/-- A step of an instruction: it is executed with the pc past it (R83, R84). -/
theorem step_of_runs {s : State} {i : Instr} (h : s.fault = none) (hr : s.runs i) : step s = exec i s.fetched := by
  unfold step; rw [h, State.fetchWord_of_le hr.1]; simp only [show decodeWord _ = _ from hr.2]

/-- All that a step with a next state can be (R91). -/
theorem step_cases {s t : State} (h : step s = .next t) :
    s.fault = none ∧
      ((4095 ≤ s.pc.toNat ∧ t = s.fetchFault) ∨
       (s.pc.toNat ≤ 4094 ∧ (∃ e, decodeWord (BitVec.ofNat 16 s.wordAtPC) = .error e) ∧
          t = s.decodeFault (BitVec.ofNat 16 s.wordAtPC)) ∨
       ∃ i, s.runs i ∧ exec i s.fetched = .next t) := by
  cases hf : s.fault with
  | some r => rw [step_of_latched hf] at h; cases h
  | none =>
    refine ⟨rfl, ?_⟩
    by_cases hpc : s.pc.toNat ≤ 4094
    · cases hd : decodeWord (BitVec.ofNat 16 s.wordAtPC) with
      | error e =>
        rw [step_of_illegal hf hpc hd] at h
        exact .inr (.inl ⟨hpc, ⟨e, rfl⟩, (Host.Outcome.next.inj h).symm⟩)
      | ok i =>
        have hr : s.runs i := ⟨hpc, hd⟩
        rw [step_of_runs hf hr] at h
        exact .inr (.inr ⟨i, hr, h⟩)
    · rw [step_of_fetchFault hf (by omega)] at h
      exact .inl ⟨by omega, (Host.Outcome.next.inj h).symm⟩

/-- The word at the pc is the word of at most one instruction. -/
theorem State.runs_unique {s : State} {i j : Instr} (hi : s.runs i) (hj : s.runs j) : i = j := by
  have h := hi.2
  unfold WordOf at h
  rw [show decodeWord _ = _ from hj.2] at h
  exact (Except.ok.inj h).symm

/-- The fetched pc less 2 is the address of the instruction. -/
theorem State.pc_fetched_sub (s : State) : s.fetched.pc - 2 = s.pc := by simp [State.fetched]

/-- The fetch does not bear on an instruction's own check. -/
theorem ownFault_fetched (i : Instr) (s : State) : ownFault i s.fetched = ownFault i s := by cases i <;> rfl

/-- The latch after an execution: untouched where the instruction's own check passes, else the record of its fault (R231, R232). -/
theorem exec_fault {i : Instr} {s t : State} (h : exec i s = .next t) :
    t.fault = match ownFault i s with | none => s.fault | some (c, info) => some ⟨c, s.pc - 2, some (encode i), info⟩ := by
  cases i with
  | call nnn =>
    by_cases hs : s.sp.val < 16
    · rw [show exec (.call nnn) s = execCall nnn s from rfl, execCall_of_lt nnn hs] at h
      obtain rfl := Host.Outcome.next.inj h
      have : ¬ s.sp.val = 16 := by omega
      simp [ownFault, this]
    · have := s.sp.isLt
      rw [show exec (.call nnn) s = execCall nnn s from rfl, execCall_of_full nnn (by omega)] at h
      obtain rfl := Host.Outcome.next.inj h
      have : s.sp.val = 16 := by omega
      simp [ownFault, this]
  | ret =>
    by_cases hs : 0 < s.sp.val
    · rw [show exec (.ret) s = execRet s from rfl, execRet_of_pos hs] at h
      obtain rfl := Host.Outcome.next.inj h
      have : ¬ s.sp.val = 0 := by omega
      simp [ownFault, this]
    · rw [show exec (.ret) s = execRet s from rfl, execRet_of_empty (by omega)] at h
      obtain rfl := Host.Outcome.next.inj h
      have : s.sp.val = 0 := by omega
      simp [ownFault, this]
  | drw x y n =>
    by_cases hs : n = 0 ∨ s.base + n ≤ 4096
    · rw [show exec (.drw x y n) s = execDrw x y n s from rfl, execDrw_of_le x y hs] at h
      obtain rfl := Host.Outcome.next.inj h
      have : ¬ (0 < n ∧ 4096 < s.I.toNat + n) := by simp only [State.base] at hs; omega
      simp [ownFault, this]
    · rw [show exec (.drw x y n) s = execDrw x y n s from rfl, execDrw_of_gt x y (by omega) (by omega)] at h
      obtain rfl := Host.Outcome.next.inj h
      have : (0 < n ∧ 4096 < s.I.toNat + n) := by simp only [State.base] at hs; omega
      simp [ownFault, this]
  | ldB x =>
    by_cases hs : s.base + 3 ≤ 4096
    · rw [show exec (.ldB x) s = execLdB x s from rfl, execLdB_of_le x hs] at h
      obtain rfl := Host.Outcome.next.inj h
      have : ¬ (4096 < s.I.toNat + 3) := by simp only [State.base] at hs; omega
      simp [ownFault, this]
    · rw [show exec (.ldB x) s = execLdB x s from rfl, execLdB_of_gt x (by omega)] at h
      obtain rfl := Host.Outcome.next.inj h
      have : (4096 < s.I.toNat + 3) := by simp only [State.base] at hs; omega
      simp [ownFault, this]
  | ldMemVx x =>
    by_cases hs : s.base + (x.val+1) ≤ 4096
    · rw [show exec (.ldMemVx x) s = execLdMemVx x s from rfl, execLdMemVx_of_le x hs] at h
      obtain rfl := Host.Outcome.next.inj h
      have : ¬ (4096 < s.I.toNat + (x.val+1)) := by simp only [State.base] at hs; omega
      simp [ownFault, this]
    · rw [show exec (.ldMemVx x) s = execLdMemVx x s from rfl, execLdMemVx_of_gt x (by omega)] at h
      obtain rfl := Host.Outcome.next.inj h
      have : (4096 < s.I.toNat + (x.val+1)) := by simp only [State.base] at hs; omega
      simp [ownFault, this]
  | ldVxMem x =>
    by_cases hs : s.base + (x.val+1) ≤ 4096
    · rw [show exec (.ldVxMem x) s = execLdVxMem x s from rfl, execLdVxMem_of_le x hs] at h
      obtain rfl := Host.Outcome.next.inj h
      have : ¬ (4096 < s.I.toNat + (x.val+1)) := by simp only [State.base] at hs; omega
      simp only [ownFault, this, if_false]; rw [State.loadRegs_fields]
    · rw [show exec (.ldVxMem x) s = execLdVxMem x s from rfl, execLdVxMem_of_gt x (by omega)] at h
      obtain rfl := Host.Outcome.next.inj h
      have : (4096 < s.I.toNat + (x.val+1)) := by simp only [State.base] at hs; omega
      simp [ownFault, this]
  | skp x =>
    by_cases hs : (s.getV x).toNat < 16
    · rw [show exec (.skp x) s = execSkp x s from rfl, execSkp_of_lt hs] at h
      obtain rfl := Host.Outcome.next.inj h
      have : ¬ 16 ≤ (s.getV x).toNat := by omega
      simp [ownFault, this]
    · rw [show exec (.skp x) s = execSkp x s from rfl, execSkp_of_ge (by omega)] at h
      obtain rfl := Host.Outcome.next.inj h
      have : 16 ≤ (s.getV x).toNat := by omega
      simp [ownFault, this]
  | sknp x =>
    by_cases hs : (s.getV x).toNat < 16
    · rw [show exec (.sknp x) s = execSknp x s from rfl, execSknp_of_lt hs] at h
      obtain rfl := Host.Outcome.next.inj h
      have : ¬ 16 ≤ (s.getV x).toNat := by omega
      simp [ownFault, this]
    · rw [show exec (.sknp x) s = execSknp x s from rfl, execSknp_of_ge (by omega)] at h
      obtain rfl := Host.Outcome.next.inj h
      have : 16 ≤ (s.getV x).toNat := by omega
      simp [ownFault, this]
  | ldVxK x =>
    simp only [exec, execLdVxK] at h
    split at h <;> (obtain rfl := Host.Outcome.next.inj h; rfl)
  | _ => (obtain rfl := Host.Outcome.next.inj h; simp [ownFault])

end Sys2Proof.Machine
end

