-- ==== Sys2Proof/Tests/Slice0.lean ====
section
/-! SUPPORT. Small tests of the model. Expected results are those of the spec's tables: the encodings of
spec/30_encoding.md, the worked examples and vectors of spec/95_test_vectors.md (named W.., V-.. below), the port rules of
spec/60_exceptions.md. Then, for each obligation with hypotheses, a state and operands that meet them. -/

namespace Sys2Proof.Machine.Tests

/-! ### Well-formedness: each check refuses a term -/

theorem test_wf_refuses_wide_address :
    Instr.wellFormed (.jp 0x1000) = false ∧ Instr.wellFormed (.call 0x1000) = false ∧
    Instr.wellFormed (.ldI 0x1000) = false ∧ Instr.wellFormed (.jpV0 0xFFFF) = false := by decide

theorem test_wf_refuses_sixteen_rows : Instr.wellFormed (.drw 0 0 16) = false := by decide

theorem test_wf_takes_the_bounds :
    Instr.wellFormed (.jp 0xFFF) = true ∧ Instr.wellFormed (.call 0xFFF) = true ∧ Instr.wellFormed (.ldI 0xFFF) = true ∧
    Instr.wellFormed (.jpV0 0xFFF) = true ∧ Instr.wellFormed (.drw 15 15 15) = true := by decide

/-! ### Decoding: words written out from the patterns of rules R81, R85 and R87, nibbles d1 d2 d3 d4 -/

theorem test_decode_zero_family :
    decodeTableWord 16 0b0000_0000_0000_0000 = some .nop ∧ decodeTableWord 16 0b0000_0000_1110_0000 = some .cls ∧
    decodeTableWord 16 0b0000_0000_1110_1110 = some .ret := by decide

theorem test_decode_nnn_formats :
    decodeTableWord 16 0b0001_1010_1011_1100 = some (.jp 0xABC) ∧ decodeTableWord 16 0b0010_1010_1011_1100 = some (.call 0xABC) ∧
    decodeTableWord 16 0b1010_0001_0010_0011 = some (.ldI 0x123) ∧
    decodeTableWord 16 0b1011_1111_1111_1111 = some (.jpV0 0xFFF) := by decide

theorem test_decode_xnn_formats :
    decodeTableWord 16 0b0011_0001_0000_0101 = some (.seImm 1 0x05) ∧
    decodeTableWord 16 0b0100_0010_1111_0000 = some (.sneImm 2 0xF0) ∧
    decodeTableWord 16 0b0110_1010_0100_0010 = some (.ldImm 0xA 0x42) ∧
    decodeTableWord 16 0b0111_1111_1000_0001 = some (.addImm 0xF 0x81) ∧
    decodeTableWord 16 0b1100_0011_0000_1111 = some (.rnd 3 0x0F) := by decide

theorem test_decode_register_compares :
    decodeTableWord 16 0b0101_0001_0010_0000 = some (.seReg 1 2) ∧
    decodeTableWord 16 0b1001_1010_1011_0000 = some (.sneReg 0xA 0xB) := by decide

theorem test_decode_alu_family :
    decodeTableWord 16 0b1000_1010_1011_0000 = some (.ldReg 0xA 0xB) ∧
    decodeTableWord 16 0b1000_1010_1011_0001 = some (.orReg 0xA 0xB) ∧
    decodeTableWord 16 0b1000_1010_1011_0010 = some (.andReg 0xA 0xB) ∧
    decodeTableWord 16 0b1000_1010_1011_0011 = some (.xorReg 0xA 0xB) ∧
    decodeTableWord 16 0b1000_1010_1011_0100 = some (.addReg 0xA 0xB) ∧
    decodeTableWord 16 0b1000_1010_1011_0101 = some (.subReg 0xA 0xB) ∧
    decodeTableWord 16 0b1000_1010_1011_0110 = some (.shr 0xA) ∧
    decodeTableWord 16 0b1000_1010_1011_0111 = some (.subn 0xA 0xB) ∧
    decodeTableWord 16 0b1000_1010_1011_1110 = some (.shl 0xA) := by decide

theorem test_decode_draw : decodeTableWord 16 0b1101_0001_0010_0101 = some (.drw 1 2 5) := by decide

theorem test_decode_x_formats :
    decodeTableWord 16 0b1110_0011_1001_1110 = some (.skp 3) ∧ decodeTableWord 16 0b1110_0011_1010_0001 = some (.sknp 3) ∧
    decodeTableWord 16 0b1111_0011_0000_0111 = some (.ldVxDT 3) ∧ decodeTableWord 16 0b1111_0011_0000_1010 = some (.ldVxK 3) ∧
    decodeTableWord 16 0b1111_0011_0001_0101 = some (.ldDTVx 3) ∧ decodeTableWord 16 0b1111_0011_0001_1000 = some (.ldSTVx 3) ∧
    decodeTableWord 16 0b1111_0011_0001_1110 = some (.addI 3) ∧ decodeTableWord 16 0b1111_0011_0010_1001 = some (.ldF 3) ∧
    decodeTableWord 16 0b1111_0011_0011_0011 = some (.ldB 3) ∧ decodeTableWord 16 0b1111_0011_0101_0101 = some (.ldMemVx 3) ∧
    decodeTableWord 16 0b1111_0011_0110_0101 = some (.ldVxMem 3) := by decide

/-- V-D: illegal words of every group of rule R89. -/
theorem test_decode_illegal :
    [0x0123, 0x00E1, 0x5121, 0x9AB1, 0x8008, 0x800F, 0xE09F, 0xF000, 0xFFFF].map (decodeTableWord 16) =
      List.replicate 9 none := by decide

/-- Fewer than two bytes are no instruction (R80). -/
theorem test_decode_truncated : (match decodeBytes [0x12] with | .error .truncated => true | _ => false) = true := by decide

/-! ### One step: `placed w` is the reset state with the word `w` at 0x200 -/

/-- The reset state with a word at 0x200. -/
def placed (w : Nat) : State := State.reset.withFetchWord 16 w

/-- What a read `f` of the next state gives, or `none` where the step gives no next state. -/
def after {α : Type} (s : State) (f : State → α) : Option α :=
  match step s with
  | .next t => some (f t)
  | .fault _ => none
  | .refused _ => none

/-- The cells that are on, of a list of cells. -/
def cellsOn (s : State) (cs : List (Nat × Nat)) : List Bool := cs.map (fun c => s.disp.at (c.1 + 64 * c.2))

/-- Bytes of memory put where a vector wants them. -/
def State.withBytes (s : State) (a : Nat) (bs : List Byte) : State := s.setMem (s.mem.writeBytes a bs)

theorem test_withFetchWord_runs_the_word : after (placed 0x6A42) (fun t => (t.getV 0xA, t.pc)) = some (0x42, 0x202) := by
  decide

/-- A pc at which no word can be fetched gives way to 0x200. -/
theorem test_withFetchWord_from_a_pc_outside_memory :
    ((State.reset.setPC 0xFFF).withFetchWord 16 0x1ABC).fetchWord = some 0x1ABC := by decide

/-- V-D. -/
theorem test_nop : after (placed 0x0000) id = some ((placed 0x0000).setPC 0x202) := by decide

/-- V-D: fault (1, 0x200, 5121, 5121), pc = 0x200. -/
theorem test_illegal_word :
    after (placed 0x5121) (fun t => (t.fault, t.pc)) =
      some (some ⟨.unimplementedOpcode, 0x200, some 0x5121, .opcode 0x5121⟩, 0x200) := by decide

/-- V-F: fault (2, 0xFFF, none, 0xFFF). -/
theorem test_fetch_past_memory :
    after (State.reset.setPC 0xFFF) (fun t => (t.fault, t.pc)) =
      some (some ⟨.fetchOutOfBounds, 0xFFF, none, .address 0xFFF⟩, 0xFFF) := by decide

/-- V-C. -/
theorem test_jp : after (placed 0x1ABC) State.pc = some 0xABC := by decide

theorem test_call : after (placed 0x2300) (fun t => (t.stack[0], t.sp, t.pc)) = some (0x202, 1, 0x300) := by decide

theorem test_call_overflow :
    after ((placed 0x2300).setSP 16) (fun t => (t.fault, t.sp, t.pc)) =
      some (some ⟨.stackOverflow, 0x200, some 0x2300, .none⟩, 16, 0x200) := by decide

theorem test_ret :
    after ((((placed 0x00EE).setStack (State.reset.stack.set 0 0x202)).setSP 1)) (fun t => (t.pc, t.sp, t.stack[0])) =
      some (0x202, 0, 0x202) := by decide

theorem test_ret_underflow :
    after (placed 0x00EE) (fun t => (t.fault, t.sp, t.pc)) =
      some (some ⟨.stackUnderflow, 0x200, some 0x00EE, .none⟩, 0, 0x200) := by decide

/-- W5, and the like for each skip. -/
theorem test_se_imm :
    after ((placed 0x3005).setV 0 5) State.pc = some 0x204 ∧ after ((placed 0x3005).setV 0 6) State.pc = some 0x202 := by decide

theorem test_sne_imm :
    after ((placed 0x4005).setV 0 6) State.pc = some 0x204 ∧ after ((placed 0x4005).setV 0 5) State.pc = some 0x202 := by decide

theorem test_se_reg :
    after (((placed 0x5010).setV 0 9).setV 1 9) State.pc = some 0x204 ∧
    after (((placed 0x5010).setV 0 9).setV 1 10) State.pc = some 0x202 := by decide

theorem test_sne_reg :
    after (((placed 0x9010).setV 0 9).setV 1 10) State.pc = some 0x204 ∧
    after (((placed 0x9010).setV 0 9).setV 1 9) State.pc = some 0x202 := by decide

/-- V-C: unmasked, 0xFF + 0xFFF. -/
theorem test_jp_v0 :
    after ((placed 0xBFFF).setV 0 0xFF) State.pc = some 0x10FE ∧ after ((placed 0xB300).setV 0 0x10) State.pc = some 0x310 := by
  decide

/-- V-A. -/
theorem test_add_imm :
    after (((placed 0x7002).setV 0 0xFF).setV VF 0x55) (fun t => (t.getV 0, t.getV VF)) = some (0x01, 0x55) := by decide

theorem test_ld_reg : after ((placed 0x8010).setV 1 0x9C) (fun t => t.getV 0) = some 0x9C := by decide

theorem test_or :
    after ((((placed 0x8011).setV 0 0x0F).setV 1 0xF0).setV VF 0x77) (fun t => (t.getV 0, t.getV VF)) = some (0xFF, 0x77) := by
  decide

theorem test_and : after (((placed 0x8012).setV 0 0x0F).setV 1 0x3C) (fun t => t.getV 0) = some 0x0C := by decide

theorem test_xor :
    after (((placed 0x8013).setV 0 0x0F).setV 1 0x3C) (fun t => t.getV 0) = some 0x33 ∧
    after ((placed 0x8003).setV 0 0x42) (fun t => t.getV 0) = some 0 := by decide

/-- W1, and V-A: the flag overwrites the sum in VF. -/
theorem test_add_reg :
    after (((placed 0x8014).setV 0 0xFF).setV 1 1) (fun t => (t.getV 0, t.getV VF)) = some (0, 1) ∧
    after (((placed 0x8014).setV 0 0xC8).setV 1 0x37) (fun t => (t.getV 0, t.getV VF)) = some (0xFF, 0) ∧
    after (((placed 0x8FE4).setV 0xE 0x90).setV VF 0x80) (fun t => t.getV VF) = some 1 := by decide

/-- W2. -/
theorem test_sub_reg :
    after (((placed 0x8015).setV 0 5).setV 1 5) (fun t => (t.getV 0, t.getV VF)) = some (0, 1) ∧
    after (((placed 0x8015).setV 0 1).setV 1 0xFF) (fun t => (t.getV 0, t.getV VF)) = some (2, 0) := by decide

/-- V-A. -/
theorem test_subn :
    after ((placed 0x8017).setV 0 1) (fun t => (t.getV 0, t.getV VF)) = some (0xFF, 0) ∧
    after (((placed 0x8017).setV 0 7).setV 1 7) (fun t => (t.getV 0, t.getV VF)) = some (0, 1) := by decide

/-- W3, V-A. -/
theorem test_shr :
    after ((placed 0x8006).setV 0 0xFE) (fun t => (t.getV 0, t.getV VF)) = some (0x7F, 0) ∧
    after ((placed 0x8F06).setV VF 3) (fun t => t.getV VF) = some 1 := by decide

theorem test_shl :
    after (((placed 0x805E).setV 0 0x81).setV 5 0xFF) (fun t => (t.getV 0, t.getV VF, t.getV 5)) = some (2, 1, 0xFF) ∧
    after ((placed 0x8F0E).setV VF 0x40) (fun t => t.getV VF) = some 0 := by decide

/-- V-A with r = AB. -/
theorem test_rnd :
    after ((placed 0xC30F).withRandom 0xAB) (fun t => t.getV 3) = some 0x0B ∧
    after ((placed 0xC300).withRandom 0xAB) (fun t => t.getV 3) = some 0 := by decide

/-- V-M. -/
theorem test_ld_i : after (placed 0xA123) State.I = some 0x123 := by decide

theorem test_add_i :
    after (((placed 0xF01E).setI 0xFFFF).setV 0 2) State.I = some 1 ∧
    after ((((placed 0xF01E).setI 0x0FFF).setV 0 1).setV VF 0x33) (fun t => (t.I, t.getV VF)) = some (0x1000, 0x33) := by decide

theorem test_ld_f :
    after ((placed 0xF029).setV 0 0x0A) State.I = some 0x32 ∧ after ((placed 0xF029).setV 0 0xFF) State.I = some 0x4FB := by decide

theorem test_bcd :
    after (((placed 0xF033).setV 0 0xFF).setI 0x300) (fun t => (t.mem.readBytes 0x300 3, t.I)) = some ([2, 5, 5], 0x300) := by
  decide

/-- V-M, V-F: nothing is written and the pc stays. -/
theorem test_bcd_past_memory :
    after (((placed 0xF033).setV 0 9).setI 0xFFE) (fun t => (t.fault, t.mem.readBytes 0xFFE 2, t.pc)) =
      some (some ⟨.memoryOutOfBounds, 0x200, some 0xF033, .range 0xFFE 3⟩, [0, 0], 0x200) := by decide

theorem test_block_store :
    after ((((placed 0xFF55).setV 0 1).setV VF 9).setI 0xFF0) (fun t => (t.mem.readBytes 0xFEF 17, t.I)) =
      some ([0, 1, 0, 0, 0, 0, 0, 0, 0, 0, 0, 0, 0, 0, 0, 0, 9], 0xFF0) := by decide

theorem test_block_store_past_memory :
    after ((placed 0xFF55).setI 0xFF1) State.fault =
      some (some ⟨.memoryOutOfBounds, 0x200, some 0xFF55, .range 0xFF1 16⟩) := by decide

theorem test_block_load :
    after (placed 0xFF65) (fun t => t.V.toList) =
      some [0xF0, 0x90, 0x90, 0x90, 0xF0, 0x20, 0x60, 0x20, 0x20, 0x70, 0xF0, 0x10, 0xF0, 0x80, 0xF0, 0xF0] := by decide

/-- V-M: X = 0 loads V0 alone. -/
theorem test_block_load_one :
    after (State.withBytes ((placed 0xF065).setI 0x300) 0x300 [0x5A, 0x77]) (fun t => (t.getV 0, t.getV 1, t.I)) =
      some (0x5A, 0, 0x300) := by decide

/-- V-G. -/
theorem test_cls :
    after ((placed 0x00E0).setDisp (Vector.replicate 32 (BitVec.allOnes 64))) State.disp = some (Vector.replicate 32 0) := by
  decide

/-- V-G: at column 62 a full row wraps to columns 0 to 5; one cell of a sprite collides, and the flag is the whole sprite's. -/
theorem test_draw :
    after (State.withBytes (((placed 0xD011).setV 0 62).setI 0x300) 0x300 [0xFF])
      (fun t => (cellsOn t [(61, 0), (62, 0), (63, 0), (0, 0), (5, 0), (6, 0)], t.getV VF)) =
      some ([false, true, true, true, true, false], 0) ∧
    after (State.withBytes (((placed 0xD012).setI 0x300).setDisp (Display.invert Display.clear 1 1)) 0x300 [0x80, 0x40])
      (fun t => (cellsOn t [(0, 0), (1, 1)], t.getV VF)) = some ([true, false], 1) := by decide

/-- V-G: no rows, no bounds check, VF to 0; with rows, the bounds check. -/
theorem test_draw_at_the_end_of_memory :
    after (((placed 0xD000).setI 0xFFFF).setV VF 1) (fun t => (t.fault, t.getV VF)) = some (none, 0) ∧
    after (((placed 0xD01F).setI 0xFF2).setV VF 7) (fun t => (t.fault, t.getV VF, t.pc)) =
      some (some ⟨.memoryOutOfBounds, 0x200, some 0xD01F, .range 0xFF2 15⟩, 7, 0x200) := by decide

/-- W5. -/
theorem test_skp :
    after (((placed 0xE09E).setV 0 3).setKey 3 true) State.pc = some 0x204 ∧
    after ((placed 0xE09E).setV 0 3) State.pc = some 0x202 := by decide

theorem test_sknp :
    after ((placed 0xE0A1).setV 0 3) State.pc = some 0x204 ∧
    after (((placed 0xE0A1).setV 0 3).setKey 3 true) State.pc = some 0x202 := by decide

/-- V-K. -/
theorem test_key_number_too_large :
    after ((placed 0xE09E).setV 0 0x10) State.fault = some (some ⟨.keyIndexOutOfRange, 0x200, some 0xE09E, .key 0x10⟩) ∧
    after ((placed 0xE0A1).setV 0 0xFF) State.fault = some (some ⟨.keyIndexOutOfRange, 0x200, some 0xE0A1, .key 0xFF⟩) := by
  decide

/-- W6: keys 9 and 4 down. -/
theorem test_key_wait :
    after (((placed 0xF30A).setKey 9 true).setKey 4 true) (fun t => (t.getV 3, t.pc)) = some (4, 0x202) := by decide

theorem test_key_wait_retreats : after (placed 0xF30A) (fun t => (t.pc, t.V)) = some (0x200, State.reset.V) := by decide

/-- V-K. -/
theorem test_timer_transfers :
    after ((placed 0xF307).setDT 0x3C) (fun t => t.getV 3) = some 0x3C ∧
    after ((placed 0xF115).setV 1 0x3C) (fun t => (t.DT, t.ST)) = some (0x3C, 0) ∧
    after ((placed 0xF118).setV 1 3) (fun t => (t.DT, t.ST)) = some (0, 3) := by decide

/-- P7: an odd pc is kept and fetched from. -/
theorem test_odd_pc :
    after (State.withBytes (State.reset.setPC 0x203) 0x203 [0x60, 0x2A]) (fun t => (t.getV 0, t.pc)) = some (0x2A, 0x205) := by
  decide

/-! ### Ports (V-K, V-F, V-H) -/

/-- A latched record, for the ports that work while one is held. -/
def sampleRecord : FaultRecord := ⟨.memoryOutOfBounds, 0x200, some 0xF033, .range 0xFFE 3⟩

/-- The reset state with that record latched. -/
def latchedState : State := State.reset.takeFault .memoryOutOfBounds 0x200 (some 0xF033) (.range 0xFFE 3)

theorem test_tick :
    (let (t, r) := tickPort ((State.reset.setDT 5).setST 2); (t.DT, t.ST, r)) = (4, 1, .tone false) ∧
    (let (t, r) := tickPort (State.reset.setST 1); (t.DT, t.ST, r)) = (0, 0, .tone true) ∧
    (tickPort State.reset).2 = .tone false ∧ (tickPort (latchedState.setDT 2)).1.DT = 1 := by decide

/-- W10: ST = 3, five ticks. -/
theorem test_tone_once :
    (session (List.replicate 5 .tickTimers) (State.reset.setST 3)).2 =
      [.tone false, .tone false, .tone true, .tone false, .tone false] := by decide

theorem test_keypress :
    (keypressPort 15 true State.reset).1.keyDown 15 = true ∧ keypressPort 16 true State.reset = (State.reset, .rejectKeyIndex) := by
  decide

theorem test_step_port :
    (stepPort 0xAB (placed 0xC3FF)).2 = .ok ∧ (stepPort 0xAB (placed 0xC3FF)).1.getV 3 = 0xAB ∧
    (stepPort 0 (placed 0x5121)).2 = .faulted ⟨.unimplementedOpcode, 0x200, some 0x5121, .opcode 0x5121⟩ ∧
    stepPort 0 latchedState = (latchedState, .faulted sampleRecord) := by decide

theorem test_load :
    (loadPort [0x55] (loadPort [0x11, 0x22, 0x33, 0x44] State.reset).1).1.mem.readBytes 0x200 4 = [0x55, 0x22, 0x33, 0x44] ∧
    (loadPort [0x60, 1] latchedState).1.fault = some sampleRecord := by decide

theorem test_reset_and_snapshot :
    resetPort latchedState = (State.reset, .ok) ∧ snapshotPort latchedState = (latchedState, .display Display.clear) := by decide

/-! ### Witnesses: for each obligation with hypotheses, a state and operands that meet them, each clause at a bound of its
range. `after s State.fault = some …` also says that the step gives a next state. -/

/-- The word at 0xFFE, the last address a fetch can start from. -/
def atTheEnd (bs : List Byte) : State := State.withBytes (State.reset.setPC 0xFFE) 0xFFE bs

theorem runs_of {s : State} {i : Instr} (h : s.pc.toNat ≤ 4094) (hw : decodeWord (BitVec.ofNat 16 s.wordAtPC) = .ok i) :
    s.runs i := ⟨h, hw⟩

theorem placed_runs_nop : (placed 0x0000).runs .nop := runs_of (by decide) rfl

theorem test_witness_DecodeInvertsEncode :
    [Instr.ret, .jp 0xFFF, .call 0, .seImm 15 0xFF, .addReg 15 0, .shr 15, .ldI 0xFFF, .jpV0 0xFFF, .drw 15 15 15, .drw 0 0 0,
      .sknp 15, .ldVxMem 15].all Instr.wellFormed = true := by decide

theorem test_witness_DecodedInstructionReencodes :
    decodeWord 0x8AB6 = .ok (.shr 0xA) ∧ decodeWord 0x8FFE = .ok (.shl 0xF) ∧ decodeWord 0xDFFF = .ok (.drw 15 15 15) :=
  ⟨rfl, rfl, rfl⟩

theorem test_witness_IllegalWordsAreTheListed :
    (atTheEnd [0xF0, 0x00]).fault = none ∧ (atTheEnd [0xF0, 0x00]).pc.toNat ≤ 4094 ∧
    illegalListed (atTheEnd [0xF0, 0x00]).wordAtPC = true ∧ illegalListed (atTheEnd [0xF0, 0x07]).wordAtPC = false := by
  decide

theorem test_witness_StepRunsTheDecodedInstruction :
    (atTheEnd [0x6A, 0x42]).fault = none ∧ (atTheEnd [0x6A, 0x42]).pc.toNat + 1 ≤ 4095 ∧
    decodeWord (BitVec.ofNat 16 (((atTheEnd [0x6A, 0x42]).mem.read 0xFFE).toNat * 256 +
      ((atTheEnd [0x6A, 0x42]).mem.read 0xFFF).toNat)) = .ok (.ldImm 0xA 0x42) := ⟨rfl, by decide, rfl⟩

theorem test_witness_FetchPastMemoryFaults :
    (State.reset.setPC 0xFFF).fault = none ∧ 4095 ≤ (State.reset.setPC 0xFFF).pc.toNat := by decide

theorem test_witness_IllegalWordFaults :
    (atTheEnd [0x51, 0x21]).fault = none ∧ (atTheEnd [0x51, 0x21]).pc.toNat ≤ 4094 ∧
    illegalListed (atTheEnd [0x51, 0x21]).wordAtPC = true := by decide

theorem test_witness_StepLatchesExactlyTheSpecifiedFault :
    State.reset.fault = none ∧ (placed 0x5121).fault = none ∧ (placed 0x00EE).fault = none := by decide

theorem test_witness_FaultedStepKeepsEverythingElse :
    ∃ t, (placed 0x00EE).fault = none ∧ step (placed 0x00EE) = .next t ∧ t.fault ≠ none :=
  ⟨_, by decide, rfl, by decide⟩

theorem test_witness_LatchedBlockDoesNotExecute : latchedState.fault = some sampleRecord := by decide

theorem test_witness_NopOnlyAdvancesThePC :
    (atTheEnd [0, 0]).fault = none ∧ (atTheEnd [0, 0]).pc.toNat ≤ 4094 ∧ (atTheEnd [0, 0]).mem.read 0xFFE = 0 ∧
    (atTheEnd [0, 0]).mem.read 0xFFF = 0 := by decide

theorem test_witness_RetPopsThePC :
    (State.reset.setSP 1).sp.val = (0 : Fin 16).val + 1 ∧ (State.reset.setSP 16).sp.val = (15 : Fin 16).val + 1 ∧
    State.reset.sp.val = 0 := by decide

theorem test_witness_JpSetsThePC : (0xFFF : Word).toNat < 4096 ∧ (0 : Word).toNat < 4096 := by decide

theorem test_witness_CallPushesTheReturnAddress :
    (0xFFF : Word).toNat < 4096 ∧ State.reset.sp.val = (0 : Fin 16).val ∧ (State.reset.setSP 15).sp.val = (15 : Fin 16).val ∧
    (State.reset.setSP 16).sp.val = 16 := by decide

theorem test_witness_ReturnResumesAfterCall : (State.reset.setSP 15).sp.val < 16 := by decide

theorem test_witness_JpV0AddsTheOffset : (0xFFF : Word).toNat < 4096 := by decide

theorem test_witness_RndDrawsAFreshFreeByte : State.reset.randomIn = none ∧ (0 : Reg) ≠ 15 := by decide

theorem test_witness_OnlyRndDependsOnTheRandomByte :
    (∀ x nn, ¬ (placed 0x0000).runs (.rnd x nn)) ∧ step (placed 0x0000) = .next ((placed 0x0000).setPC 0x202) := by
  refine ⟨fun x nn h => ?_, rfl⟩
  cases State.runs_unique placed_runs_nop h

theorem test_witness_IndexRegisterWrites : (0xFFF : Word).toNat < 4096 := by decide

theorem test_witness_BcdStoresTheDigits :
    (State.reset.setI 0xFFD).mem.wf = true ∧ (State.reset.setI 0xFFD).base + 3 ≤ 4096 ∧ 4096 < (State.reset.setI 0xFFE).base + 3 := by
  decide

theorem test_witness_BlockStoreWritesV0ToVX :
    (State.reset.setI 0xFF0).mem.wf = true ∧ (State.reset.setI 0xFF0).base + ((15 : Reg).val + 1) ≤ 4096 ∧
    4096 < (State.reset.setI 0xFF1).base + ((15 : Reg).val + 1) := by decide

theorem test_witness_BlockLoadReadsV0ToVX :
    (State.reset.setI 0xFFF).base + ((0 : Reg).val + 1) ≤ 4096 ∧ 4096 < (State.reset.setI 0x1000).base + ((0 : Reg).val + 1) := by
  decide

/-- The state in between: the one the store left. -/
theorem test_witness_BlockRoundTrip :
    (State.reset.setI 0xFF0).mem.wf = true ∧ (State.reset.setI 0xFF0).base + (15 : Reg).val ≤ 4095 ∧
    ∃ t t' : State, exec (.ldMemVx 15) (State.reset.setI 0xFF0) = .next t ∧ t'.I = t.I ∧
      ∀ a, (State.reset.setI 0xFF0).base ≤ a → a ≤ (State.reset.setI 0xFF0).base + (15 : Reg).val →
        t'.mem.read a = t.mem.read a := ⟨by decide, by decide, _, _, rfl, rfl, fun _ _ _ => rfl⟩

theorem test_witness_FetchSeesTheStore :
    (State.reset.setI 0xFFE).mem.wf = true ∧ 1 ≤ (1 : Reg).val ∧ (State.reset.setI 0xFFE).base + ((1 : Reg).val + 1) ≤ 4096 := by
  decide

/-- Bounds: 15 rows that end at 4095, no row and I at its largest; a covered cell that is on, and covered cells that are all
off. -/
theorem test_witness_DrawInvertsTheCellsItCovers :
    (15 < 16 ∧ (State.reset.setI 0xFF1).base + 15 ≤ 4096) ∧ (State.reset.setI 0xFFFF).base = 65535 ∧
    (∃ u v, spriteCovers (State.reset.setDisp (Display.invert Display.clear 0 0)) 0 0 1 u v ∧
      (State.reset.setDisp (Display.invert Display.clear 0 0)).disp.at (u + 64 * v) = true) ∧
    (∀ u v, spriteCovers State.reset 0 0 0 u v → State.reset.disp.at (u + 64 * v) = false) := by
  refine ⟨by decide, by decide, ⟨0, 0, ⟨0, 0, by decide, by decide, by decide, by decide, by decide⟩, by decide⟩, ?_⟩
  rintro u v ⟨j, _, hj, _⟩
  exact absurd hj (Nat.not_lt_zero j)

theorem test_witness_DrawPastMemoryFaults : 15 < 16 ∧ 0 < 15 ∧ 4096 < (State.reset.setI 0xFF2).base + 15 := by decide

/-- The second draw from the state that the first one left, no register of the sprite's being VF. -/
theorem test_witness_DoubleDrawRestoresTheDisplay :
    ∃ t t' : State, exec (.drw 0 1 5) State.reset = .next t ∧ State.reset.base + 5 ≤ 4096 ∧ t'.disp = t.disp ∧
      t'.I = State.reset.I ∧ (∀ a, t'.mem.read a = State.reset.mem.read a) ∧ t'.getV 0 = State.reset.getV 0 ∧
      t'.getV 1 = State.reset.getV 1 := by
  obtain ⟨t, ht⟩ := exec_next (.drw 0 1 5) State.reset
  rw [show exec (.drw 0 1 5) State.reset = execDrw 0 1 5 State.reset from rfl,
    execDrw_of_le 0 1 (Or.inr (by decide))] at ht
  obtain rfl := Host.Outcome.next.inj ht
  exact ⟨_, _, execDrw_of_le 0 1 (Or.inr (by decide)), by decide, rfl, rfl, fun _ => rfl,
    State.getV_setV_other _ _ (by decide), State.getV_setV_other _ _ (by decide)⟩

theorem test_witness_KeySkips :
    ((State.reset.setV 0 15).getV 0).toNat = (15 : Fin 16).val ∧ 16 ≤ ((State.reset.setV 0 16).getV 0).toNat := by decide

theorem test_witness_KeyWaitStoresTheLowestKey :
    ((State.reset.setKey 15 true).keyDown 15 = true ∧ ∀ j, j < 15 → (State.reset.setKey 15 true).keyDown j = false) ∧
    (State.reset.setKey 0 true).keyDown 0 = true ∧ ∀ k, State.reset.keyDown k = false := by decide

theorem test_witness_KeyWaitNeverTimesOut :
    (placed 0xF30A).fault = none ∧ (placed 0xF30A).runs (.ldVxK 3) ∧ ∀ j, (placed 0xF30A).keyDown j = false :=
  ⟨by decide, runs_of (by decide) rfl, by decide⟩

theorem test_witness_StepKeepsMemoryCanonical :
    ∃ t, (((placed 0xF033).setI 0xFFD).mem.wf = true) ∧ step ((placed 0xF033).setI 0xFFD) = .next t :=
  ⟨_, by decide, rfl⟩

theorem test_witness_StepKeepsThePCBounded :
    ∃ t, ((placed 0xBFFF).setV 0 0xFF).pcBounded ∧ step ((placed 0xBFFF).setV 0 0xFF) = .next t :=
  ⟨_, ⟨by decide, by decide⟩, rfl⟩

theorem test_witness_EverySessionKeepsTheInvariants : latchedState.Inv := ⟨rfl, by decide, by decide⟩

theorem test_witness_OnlyTransfersChangeThePCsParity :
    step (placed 0x0000) = .next ((placed 0x0000).setPC 0x202) ∧
    (∀ nnn, ¬ (placed 0x0000).runs (.jp nnn) ∧ ¬ (placed 0x0000).runs (.call nnn) ∧ ¬ (placed 0x0000).runs (.jpV0 nnn)) ∧
    ¬ (placed 0x0000).runs .ret := by
  refine ⟨rfl, fun nnn => ⟨fun h => ?_, fun h => ?_, fun h => ?_⟩, fun h => ?_⟩ <;>
    cases State.runs_unique placed_runs_nop h

theorem test_witness_StepsLeaveKeysAndTimersAlone :
    step (placed 0x0000) = .next ((placed 0x0000).setPC 0x202) ∧ (∀ x, ¬ (placed 0x0000).runs (.ldDTVx x)) ∧
    ∀ x, ¬ (placed 0x0000).runs (.ldSTVx x) := by
  refine ⟨rfl, fun x h => ?_, fun x h => ?_⟩ <;> cases State.runs_unique placed_runs_nop h

theorem test_witness_OnlyTheTwoStoresWriteMemory :
    after (((placed 0xF033).setV 0 9).setI 0xFFD) (fun t => decide (t.mem.read 0xFFF ≠ 0)) = some true ∧
    (((placed 0xF033).setV 0 9).setI 0xFFD).mem.read 0xFFF = 0 ∧
    after (((placed 0xF055).setV 0 9).setI 0xFFF) (fun t => decide (t.mem.read 0xFFF ≠ 0)) = some true := by decide

/-- Each clause: a changed display, index register, stack and `sp`. -/
theorem test_witness_OnlyTheirWritersWriteDisplayIndexAndStack :
    after (placed 0xD005) (fun t => decide (t.disp ≠ (placed 0xD005).disp)) = some true ∧
    after (placed 0xA123) (fun t => decide (t.I ≠ (placed 0xA123).I)) = some true ∧
    after (placed 0x2300) (fun t => decide (t.stack ≠ (placed 0x2300).stack)) = some true ∧
    after ((placed 0x00EE).setSP 16) (fun t => decide (t.sp ≠ 16)) = some true := by decide

theorem test_witness_OnlyFlagWritersAndItsDestinationWriteVF :
    after ((placed 0x8006).setV 0 1) (fun t => decide (t.getV VF ≠ 0)) = some true ∧
    after (placed 0x6F01) (fun t => decide (t.getV VF ≠ 0)) = some true ∧
    after (placed 0xFF65) (fun t => decide (t.getV VF ≠ 0)) = some true := by decide

theorem test_witness_NoStepReadsTheSoundTimer :
    step (placed 0x0000) = .next ((placed 0x0000).setPC 0x202) ∧ (placed 0x0000).fault = none := ⟨rfl, rfl⟩

/-- Every entry stale, and every entry pushed. -/
theorem test_witness_NoStepReadsAStaleStackEntry :
    (∀ k : Fin 16, k.val < (placed 0x0000).sp.val →
      (Vector.replicate 16 (0xFFFF : Word))[k.val] = (placed 0x0000).stack[k.val]) ∧
    (∀ k : Fin 16, k.val < ((placed 0x00EE).setSP 16).sp.val →
      (Vector.replicate 16 (0 : Word))[k.val] = ((placed 0x00EE).setSP 16).stack[k.val]) ∧
    step (placed 0x0000) = .next ((placed 0x0000).setPC 0x202) := ⟨by decide, by decide, rfl⟩

theorem test_witness_TerminalStateStays : (placed 0x1200).terminal := ⟨by decide, by decide, by decide⟩

theorem test_witness_LoadCopiesTheImage :
    State.reset.mem.wf = true ∧ 0x200 + (List.replicate 3584 (0 : Byte)).length ≤ 4096 ∧
    4096 < 0x200 + (List.replicate 3585 (0 : Byte)).length :=
  ⟨by decide, by rw [List.length_replicate], by rw [List.length_replicate]; decide⟩

theorem test_witness_StepPortIsOneStep : State.reset.fault = none ∧ (placed 0x5121).fault = none := by decide

theorem test_witness_KeypressSetsOneKey : 15 = (15 : Fin 16).val ∧ 0 = (0 : Fin 16).val ∧ 16 ≤ 16 := by decide

end Sys2Proof.Machine.Tests
end

/-! SUPPORT. The step's random input (R13, R155): putting a byte on it commutes with every operation but the draw of `CXNN`, so
no other instruction's outcome depends on it. -/

namespace Sys2Proof.Machine

@[simp] theorem State.fetched_withRandom (s : State) (r : Byte) : (s.withRandom r).fetched = s.fetched.withRandom r := rfl

@[simp] theorem State.skipIf_withRandom (s : State) (c : Bool) (r : Byte) :
    (s.withRandom r).skipIf c = (s.skipIf c).withRandom r := by cases c <;> rfl

@[simp] theorem State.loadRegs_withRandom (s : State) (ks : List Reg) (a : Nat) (r : Byte) :
    (s.withRandom r).loadRegs ks a = (s.loadRegs ks a).withRandom r := by
  induction ks generalizing s a with
  | nil => rfl
  | cons k ks ih => exact ih (s.setV k (s.mem.read a)) (a + 1)

/-- The fetch does not read the random input. -/
@[simp] theorem State.runs_withRandom (s : State) (r : Byte) (i : Instr) : (s.withRandom r).runs i ↔ s.runs i := Iff.rfl

/-- An instruction other than `CXNN` runs alike whatever byte is on the random input, and leaves that byte there. Where it makes a
check, the check reads nothing of the input, so both runs take the same branch. -/
theorem exec_withRandom {i : Instr} (hi : ∀ x nn, i ≠ .rnd x nn) (s : State) (r : Byte) :
    ∃ t, exec i s = .next t ∧ exec i (s.withRandom r) = .next (t.withRandom r) := by
  cases i with
  | rnd x nn => exact absurd rfl (hi x nn)
  | call nnn =>
    by_cases hs : s.sp.val < 16
    · exact ⟨_, execCall_of_lt nnn hs, execCall_of_lt (s := s.withRandom r) nnn hs⟩
    · have hs : s.sp.val = 16 := by omega
      exact ⟨_, execCall_of_full nnn hs, execCall_of_full (s := s.withRandom r) nnn hs⟩
  | ret =>
    obtain hs | hs := Nat.eq_zero_or_pos s.sp.val
    · exact ⟨_, execRet_of_empty hs, execRet_of_empty (s := s.withRandom r) hs⟩
    · exact ⟨_, execRet_of_pos hs, execRet_of_pos (s := s.withRandom r) hs⟩
  | drw x y n =>
    by_cases hb : n = 0 ∨ s.base + n ≤ 4096
    · exact ⟨_, execDrw_of_le x y hb, execDrw_of_le (s := s.withRandom r) x y hb⟩
    · obtain ⟨hn, hb⟩ : 0 < n ∧ 4096 < s.base + n := by omega
      exact ⟨_, execDrw_of_gt x y hn hb, execDrw_of_gt (s := s.withRandom r) x y hn hb⟩
  | ldB x =>
    obtain hb | hb := Nat.lt_or_ge 4096 (s.base + 3)
    · exact ⟨_, execLdB_of_gt x hb, execLdB_of_gt (s := s.withRandom r) x hb⟩
    · exact ⟨_, execLdB_of_le x hb, execLdB_of_le (s := s.withRandom r) x hb⟩
  | ldMemVx x =>
    obtain hb | hb := Nat.lt_or_ge 4096 (s.base + (x.val + 1))
    · exact ⟨_, execLdMemVx_of_gt x hb, execLdMemVx_of_gt (s := s.withRandom r) x hb⟩
    · exact ⟨_, execLdMemVx_of_le x hb, execLdMemVx_of_le (s := s.withRandom r) x hb⟩
  | ldVxMem x =>
    obtain hb | hb := Nat.lt_or_ge 4096 (s.base + (x.val + 1))
    · exact ⟨_, execLdVxMem_of_gt x hb, execLdVxMem_of_gt (s := s.withRandom r) x hb⟩
    · refine ⟨_, execLdVxMem_of_le x hb, ?_⟩
      rw [← State.loadRegs_withRandom]
      exact execLdVxMem_of_le (s := s.withRandom r) x hb
  | skp x =>
    obtain hk | hk := Nat.lt_or_ge (s.getV x).toNat 16
    · refine ⟨_, execSkp_of_lt hk, ?_⟩
      rw [← State.skipIf_withRandom]
      exact execSkp_of_lt (s := s.withRandom r) hk
    · exact ⟨_, execSkp_of_ge hk, execSkp_of_ge (s := s.withRandom r) hk⟩
  | sknp x =>
    obtain hk | hk := Nat.lt_or_ge (s.getV x).toNat 16
    · refine ⟨_, execSknp_of_lt hk, ?_⟩
      rw [← State.skipIf_withRandom]
      exact execSknp_of_lt (s := s.withRandom r) hk
    · exact ⟨_, execSknp_of_ge hk, execSknp_of_ge (s := s.withRandom r) hk⟩
  | ldVxK x =>
    cases hk : s.lowestKeyDown with
    | some k => exact ⟨_, execLdVxK_of_down x hk, execLdVxK_of_down (s := s.withRandom r) x hk⟩
    | none =>
      have hup := (State.lowestKeyDown_eq_none_iff s).mp hk
      exact ⟨_, execLdVxK_of_up x hup, execLdVxK_of_up (s := s.withRandom r) x hup⟩
  | seImm | sneImm | seReg | sneReg =>
    exact ⟨_, rfl, congrArg Host.Outcome.next (State.skipIf_withRandom s _ r)⟩
  | nop | cls | jp | ldImm | addImm | ldReg | orReg | andReg | xorReg | addReg | subReg | shr | subn | shl | ldI | jpV0
  | ldVxDT | ldDTVx | ldSTVx | addI | ldF => exact ⟨_, rfl, rfl⟩

/-- Settles O27: the fetch and the decode do not read the random input, and `exec_withRandom` says it of the instruction. -/
theorem onlyRndDependsOnTheRandomByte : Obligations.OnlyRndDependsOnTheRandomByte := by
  intro s t r hrnd h
  obtain ⟨hf, ⟨hpc, rfl⟩ | ⟨hpc, ⟨e, hd⟩, rfl⟩ | ⟨i, hi, hx⟩⟩ := step_cases h
  · exact step_of_fetchFault (s := s.withRandom r) hf hpc
  · exact step_of_illegal (s := s.withRandom r) hf hpc hd
  · have hne : ∀ x nn, i ≠ .rnd x nn := fun x nn he => hrnd x nn (he ▸ hi)
    obtain ⟨u, hu, hur⟩ := exec_withRandom hne s.fetched r
    obtain rfl : u = t := Host.Outcome.next.inj (hu.symm.trans hx)
    rw [step_of_runs (s := s.withRandom r) hf ((State.runs_withRandom s r i).mpr hi), State.fetched_withRandom, hur]

end Sys2Proof.Machine

/-! SUPPORT. What a step keeps and what it cannot read: memory's canonical form, the parity of the pc, the writers of each part of the
state and of each general register, and that neither the sound timer nor a stale stack entry bears on a step (spec/10_state.md). -/

namespace Sys2Proof.Machine

/-- A step with a next state takes the fault of its fetch or its decode where it stands, or executes the instruction it runs. -/
theorem step_takeFault_or_exec {s t : State} (h : step s = .next t) :
    (∃ c op info, t = s.takeFault c s.pc op info) ∨ ∃ i, s.runs i ∧ exec i s.fetched = .next t := by
  obtain ⟨-, ⟨-, rfl⟩ | ⟨-, -, rfl⟩ | hx⟩ := step_cases h
  · exact .inl ⟨_, _, _, rfl⟩
  · exact .inl ⟨_, _, _, rfl⟩
  · exact .inr hx

/-! ### Memory -/

theorem exec_keeps_memCanonical {i : Instr} {s t : State} (hs : s.memCanonical) (h : exec i s = .next t) : t.memCanonical := by
  unfold State.memCanonical at hs ⊢
  obtain hm | ⟨x, -, hb, hm⟩ | ⟨x, -, hb, hm⟩ := exec_mem_cases h <;> rw [hm]
  · exact hs
  · exact Memory.wf_writeBytes _ hs hb
  · exact Memory.wf_writeBytes _ hs (by simpa using hb)

/-- Settles O42: the stores are in bounds, and a write in bounds keeps the form. -/
theorem stepKeepsMemoryCanonical : Obligations.StepKeepsMemoryCanonical := by
  intro s t hs h
  obtain ⟨_, _, _, rfl⟩ | ⟨i, -, hx⟩ := step_takeFault_or_exec h
  · exact hs
  · exact exec_keeps_memCanonical (s := s.fetched) hs hx

/-! ### The pc -/

/-- All that an execution does to the pc: leave it past the instruction, skip one more, go back to the instruction (a fault, or
`FX0A`'s wait), or go where one of the four transfers says. -/
theorem exec_pc_cases {i : Instr} {s t : State} (h : exec i s = .next t) :
    t.pc = s.pc ∨ t.pc = s.pc + 2 ∨ t.pc = s.pc - 2 ∨
    (∃ nnn, (i = .jp nnn ∨ i = .call nnn) ∧ t.pc = nnn) ∨
    (∃ nnn, i = .jpV0 nnn ∧ t.pc = offsetTarget (s.getV 0) nnn) ∨
    (i = .ret ∧ ∃ k : Fin 16, t.pc = s.stack[k.val]) := by
  cases i with
  | jp nnn => obtain rfl := Host.Outcome.next.inj h; simp
  | jpV0 nnn => obtain rfl := Host.Outcome.next.inj h; simp
  | call nnn =>
    simp only [exec, execCall, raiseFault] at h
    split at h <;> (obtain rfl := Host.Outcome.next.inj h; simp)
  | ret =>
    simp only [exec, execRet, raiseFault] at h
    split at h
    · next v s' hp =>
      obtain ⟨hsp, rfl, rfl⟩ := State.pop_cases hp
      obtain rfl := Host.Outcome.next.inj h
      exact .inr (.inr (.inr (.inr (.inr ⟨rfl, ⟨s.sp.val - 1, by omega⟩, rfl⟩))))
    · obtain rfl := Host.Outcome.next.inj h; simp
  | seImm | sneImm | seReg | sneReg =>
    obtain rfl := Host.Outcome.next.inj h
    rw [State.pc_skipIf]
    split <;> simp
  | skp | sknp =>
    simp only [exec, execSkp, execSknp, raiseFault] at h
    split at h <;> obtain rfl := Host.Outcome.next.inj h
    · rw [State.pc_skipIf]
      split <;> simp
    · simp
  | ldVxMem x =>
    simp only [exec, execLdVxMem, raiseFault] at h
    split at h
    · obtain rfl := Host.Outcome.next.inj h; rw [State.loadRegs_fields]; simp
    · obtain rfl := Host.Outcome.next.inj h; simp
  | drw | ldB | ldMemVx | ldVxK =>
    simp only [exec, execDrw, execLdB, execLdMemVx, execLdVxK, raiseFault] at h
    split at h <;> (obtain rfl := Host.Outcome.next.inj h; simp)
  | nop | cls | ldImm | addImm | ldReg | orReg | andReg | xorReg | addReg | subReg | shr | subn | shl | ldI | rnd | ldVxDT | ldDTVx
  | ldSTVx | addI | ldF => obtain rfl := Host.Outcome.next.inj h; exact .inl rfl

theorem toNat_add_two_mod_two (w : Word) : (w + 2).toNat % 2 = w.toNat % 2 := by bv_omega

theorem toNat_sub_two_mod_two (w : Word) : (w - 2).toNat % 2 = w.toNat % 2 := by bv_omega

/-- Settles O46: where the pc is not transferred it moves by 2 or by none, modulo 65536, which is even. -/
theorem onlyTransfersChangeThePCsParity : Obligations.OnlyTransfersChangeThePCsParity := by
  intro s t h htr hret
  obtain ⟨_, _, _, rfl⟩ | ⟨i, hi, hx⟩ := step_takeFault_or_exec h
  · rfl
  · have hfetched : s.fetched.pc.toNat % 2 = s.pc.toNat % 2 := toNat_add_two_mod_two s.pc
    rw [← hfetched]
    obtain hpc | hpc | hpc | ⟨nnn, rfl | rfl, -⟩ | ⟨nnn, rfl, -⟩ | ⟨rfl, -⟩ := exec_pc_cases hx
    · rw [hpc]
    · rw [hpc, toNat_add_two_mod_two]
    · rw [hpc, toNat_sub_two_mod_two]
    · exact absurd hi (htr nnn).1
    · exact absurd hi (htr nnn).2.1
    · exact absurd hi (htr nnn).2.2
    · exact absurd hi hret

/-! ### The writers of each part and of each register -/

/-- Settles O47: `exec_part_writers` read at the instruction the step runs. -/
theorem stepsLeaveKeysAndTimersAlone : Obligations.StepsLeaveKeysAndTimersAlone := by
  intro s t h
  obtain ⟨_, _, _, rfl⟩ | ⟨i, hi, hx⟩ := step_takeFault_or_exec h
  · simp
  · obtain ⟨hkeys, hDT, hST, -⟩ := exec_part_writers hx
    refine ⟨hkeys, fun hno => ?_, fun hno => ?_⟩
    · obtain hDT | ⟨x, rfl⟩ := hDT
      · exact hDT
      · exact absurd hi (hno x)
    · obtain hST | ⟨x, rfl⟩ := hST
      · exact hST
      · exact absurd hi (hno x)

/-- Settles O49: where `exec_part_writers` says a part is kept, it did not change; what is left are its writers. -/
theorem onlyTheirWritersWriteDisplayIndexAndStack : Obligations.OnlyTheirWritersWriteDisplayIndexAndStack := by
  intro s t h
  obtain ⟨_, _, _, rfl⟩ | ⟨i, hi, hx⟩ := step_takeFault_or_exec h
  · simp
  · obtain ⟨-, -, -, hdisp, hI, hstack, hsp⟩ := exec_part_writers hx
    refine ⟨fun hne => ?_, fun hne => ?_, fun hne => ?_, fun hne => ?_⟩
    · obtain rfl | ⟨x, y, n, rfl⟩ := hdisp.resolve_left hne
      · exact .inl hi
      · exact .inr ⟨x, y, n, hi⟩
    · obtain ⟨nnn, rfl⟩ | ⟨x, rfl | rfl⟩ := hI.resolve_left hne
      · exact .inl ⟨nnn, hi⟩
      · exact .inr ⟨x, .inl hi⟩
      · exact .inr ⟨x, .inr hi⟩
    · obtain ⟨nnn, rfl⟩ := hstack.resolve_left hne
      exact ⟨nnn, hi⟩
    · obtain ⟨nnn, rfl⟩ | rfl := hsp.resolve_left hne
      · exact .inl ⟨nnn, hi⟩
      · exact .inr hi

/-- The instructions that can write the register `y`: by naming it as their destination, or `VF` as the flag (R27, R140). -/
def Writes (y : Reg) (i : Instr) : Prop :=
  match i with
  | .ldImm x _ | .addImm x _ | .rnd x _ | .ldReg x _ | .orReg x _ | .andReg x _ | .xorReg x _ | .ldVxDT x | .ldVxK x => y = x
  | .addReg x _ | .subReg x _ | .subn x _ | .shr x | .shl x => y = VF ∨ y = x
  | .drw _ _ _ => y = VF
  | .ldVxMem x => y.val ≤ x.val
  | _ => False

/-- An execution leaves alone every register that its instruction does not write. -/
theorem exec_getV_of_not_writes {i : Instr} {s t : State} {y : Reg} (h : exec i s = .next t) (hy : ¬ Writes y i) :
    t.getV y = s.getV y := by
  cases i with
  | ldImm | addImm | rnd | ldReg | orReg | andReg | xorReg | ldVxDT =>
    obtain rfl := Host.Outcome.next.inj h
    exact State.getV_setV_other _ _ hy
  | addReg | subReg | subn | shr | shl =>
    obtain rfl := Host.Outcome.next.inj h
    obtain ⟨hF, hx⟩ := not_or.mp hy
    rw [State.getV_setResultThenFlag, if_neg hF, if_neg hx]
  | ldVxK x =>
    simp only [exec, execLdVxK] at h
    split at h <;> obtain rfl := Host.Outcome.next.inj h
    · exact State.getV_setV_other _ _ hy
    · rfl
  | drw x z n =>
    simp only [exec, execDrw, raiseFault] at h
    split at h <;> obtain rfl := Host.Outcome.next.inj h
    · exact (State.getV_setFlag _ _ _).trans (if_neg hy)
    · rfl
  | ldVxMem x =>
    simp only [exec, execLdVxMem, raiseFault] at h
    split at h <;> obtain rfl := Host.Outcome.next.inj h
    · exact (State.getV_loadBlock _ _ _ _).trans (if_neg hy)
    · rfl
  | call nnn =>
    simp only [exec, execCall, raiseFault] at h
    split at h
    · next s' hp =>
      obtain ⟨_, rfl⟩ := State.push_cases hp
      obtain rfl := Host.Outcome.next.inj h; rfl
    · obtain rfl := Host.Outcome.next.inj h; rfl
  | ret =>
    simp only [exec, execRet, raiseFault] at h
    split at h
    · next v s' hp =>
      obtain ⟨_, _, rfl⟩ := State.pop_cases hp
      obtain rfl := Host.Outcome.next.inj h; rfl
    · obtain rfl := Host.Outcome.next.inj h; rfl
  | ldB | ldMemVx | skp | sknp =>
    simp only [exec, execLdB, execLdMemVx, execSkp, execSknp, raiseFault] at h
    split at h <;> (obtain rfl := Host.Outcome.next.inj h; simp)
  | nop | cls | jp | seImm | sneImm | seReg | sneReg | ldI | jpV0 | ldDTVx | ldSTVx | addI | ldF =>
    obtain rfl := Host.Outcome.next.inj h; simp

/-- Settles O50: what `Writes VF` says of each instruction is the list of R27. -/
theorem onlyFlagWritersAndItsDestinationWriteVF : Obligations.OnlyFlagWritersAndItsDestinationWriteVF := by
  intro s t h hne
  obtain ⟨_, _, _, rfl⟩ | ⟨i, hi, hx⟩ := step_takeFault_or_exec h
  · exact absurd rfl hne
  · have hw : Writes VF i := by_contra fun hno => hne (exec_getV_of_not_writes (s := s.fetched) hx hno)
    cases i with
    | addReg x y => exact .inl ⟨x, y, .inl hi⟩
    | subReg x y => exact .inl ⟨x, y, .inr (.inl hi)⟩
    | subn x y => exact .inl ⟨x, y, .inr (.inr (.inl hi))⟩
    | shr x => exact .inl ⟨x, 0, .inr (.inr (.inr (.inl hi)))⟩
    | shl x => exact .inl ⟨x, 0, .inr (.inr (.inr (.inr (.inl hi))))⟩
    | drw x y n => exact .inl ⟨x, y, .inr (.inr (.inr (.inr (.inr ⟨n, hi⟩))))⟩
    | ldImm x nn => obtain rfl : VF = x := hw; exact .inr (.inl ⟨nn, .inl hi⟩)
    | addImm x nn => obtain rfl : VF = x := hw; exact .inr (.inl ⟨nn, .inr (.inl hi)⟩)
    | rnd x nn => obtain rfl : VF = x := hw; exact .inr (.inl ⟨nn, .inr (.inr hi)⟩)
    | ldReg x y => obtain rfl : VF = x := hw; exact .inr (.inr (.inl ⟨y, .inl hi⟩))
    | orReg x y => obtain rfl : VF = x := hw; exact .inr (.inr (.inl ⟨y, .inr (.inl hi)⟩))
    | andReg x y => obtain rfl : VF = x := hw; exact .inr (.inr (.inl ⟨y, .inr (.inr (.inl hi))⟩))
    | xorReg x y => obtain rfl : VF = x := hw; exact .inr (.inr (.inl ⟨y, .inr (.inr (.inr hi))⟩))
    | ldVxDT x => obtain rfl : VF = x := hw; exact .inr (.inr (.inr (.inl hi)))
    | ldVxK x => obtain rfl : VF = x := hw; exact .inr (.inr (.inr (.inr (.inl hi))))
    | ldVxMem x =>
      obtain rfl : x = VF := Fin.ext (Nat.le_antisymm (Nat.le_of_lt_succ x.isLt) hw)
      exact .inr (.inr (.inr (.inr (.inr hi))))
    | _ => exact absurd hw id

end Sys2Proof.Machine

/-! SUPPORT. What no step reads (spec/10_state.md rules R29, R37, R40): the sound timer, and the stack entries at and above `sp`. -/

namespace Sys2Proof.Machine

theorem State.setStack_of_eq {s : State} {st : Vector Word 16} (h : s.stack = st) : s.setStack st = s := by subst h; rfl

theorem State.setST_of_eq {s : State} {v : Byte} (h : s.ST = v) : s.setST v = s := by subst h; rfl

@[simp] theorem State.base_setST (s : State) (v : Byte) : (s.setST v).base = s.base := rfl

@[simp] theorem State.base_setStack (s : State) (st : Vector Word 16) : (s.setStack st).base = s.base := rfl

@[simp] theorem State.lowestKeyDown_setST (s : State) (v : Byte) : (s.setST v).lowestKeyDown = s.lowestKeyDown := rfl

@[simp] theorem State.lowestKeyDown_setStack (s : State) (st : Vector Word 16) :
    (s.setStack st).lowestKeyDown = s.lowestKeyDown := rfl

@[simp] theorem State.skipIf_setStack_setST (s : State) (c : Bool) (st : Vector Word 16) (v : Byte) :
    ((s.setStack st).setST v).skipIf c = ((s.skipIf c).setStack st).setST v := by cases c <;> rfl

@[simp] theorem State.loadRegs_setStack_setST (s : State) (ks : List Reg) (a : Nat) (st : Vector Word 16) (v : Byte) :
    ((s.setStack st).setST v).loadRegs ks a = ((s.loadRegs ks a).setStack st).setST v := by
  induction ks generalizing s a with
  | nil => rfl
  | cons k ks ih => exact ih (s.setV k (s.mem.read a)) (a + 1)

/-- The instructions that use the call stack or write ST. -/
def UsesStackOrST (i : Instr) : Prop := (∃ nnn, i = .call nnn) ∨ i = .ret ∨ ∃ x, i = .ldSTVx x

/-- An instruction that neither uses the call stack nor writes ST runs alike whatever the entries and ST are, and leaves them as
they are: what it checks is neither of them, so both runs take the same branch. -/
theorem exec_setStack_setST {i : Instr} (hi : ¬ UsesStackOrST i) {s t : State} (h : exec i s = .next t) (st : Vector Word 16)
    (v : Byte) : exec i ((s.setStack st).setST v) = .next ((t.setStack st).setST v) := by
  cases i with
  | call nnn => exact absurd (.inl ⟨nnn, rfl⟩) hi
  | ret => exact absurd (.inr (.inl rfl)) hi
  | ldSTVx x => exact absurd (.inr (.inr ⟨x, rfl⟩)) hi
  | drw | ldB | ldMemVx | ldVxMem =>
    simp only [exec, execDrw, execLdB, execLdMemVx, execLdVxMem, State.base_setST, State.base_setStack,
      State.loadRegs_setStack_setST] at h ⊢
    split at h <;> next hc => obtain rfl := Host.Outcome.next.inj h; simp only [hc]; rfl
  | skp | sknp =>
    simp only [exec, execSkp, execSknp, State.getV_setST, State.getV_setStack, State.skipIf_setStack_setST] at h ⊢
    split at h <;> (obtain rfl := Host.Outcome.next.inj h; rfl)
  | ldVxK x =>
    simp only [exec, execLdVxK, State.lowestKeyDown_setST, State.lowestKeyDown_setStack] at h ⊢
    split at h <;> (obtain rfl := Host.Outcome.next.inj h; rfl)
  | seImm | sneImm | seReg | sneReg =>
    obtain rfl := Host.Outcome.next.inj h
    exact congrArg Host.Outcome.next (State.skipIf_setStack_setST s _ st v)
  | nop | cls | jp | ldImm | addImm | ldReg | orReg | andReg | xorReg | addReg | subReg | shr | subn | shl | ldI | jpV0 | rnd | ldVxDT
  | ldDTVx | addI | ldF => obtain rfl := Host.Outcome.next.inj h; rfl

/-- Such an instruction keeps the call stack and ST. -/
theorem exec_keeps_stack_sp_ST {i : Instr} (hi : ¬ UsesStackOrST i) {s t : State} (h : exec i s = .next t) :
    t.stack = s.stack ∧ t.sp = s.sp ∧ t.ST = s.ST := by
  obtain ⟨hcall, hret, hldST⟩ : (¬ ∃ nnn, i = .call nnn) ∧ i ≠ .ret ∧ ¬ ∃ x, i = .ldSTVx x := by simpa [UsesStackOrST] using hi
  obtain ⟨-, -, hST, -, -, hstack, hsp⟩ := exec_part_writers h
  exact ⟨hstack.resolve_right hcall, hsp.resolve_right (not_or.mpr ⟨hcall, hret⟩), hST.resolve_right hldST⟩

/-! ### The sound timer -/

/-- An execution with another ST gives the same state but for ST. -/
theorem exec_setST {i : Instr} {s t : State} (h : exec i s = .next t) (v : Byte) : ∃ w, exec i (s.setST v) = .next (t.setST w) := by
  by_cases hi : UsesStackOrST i
  · obtain ⟨nnn, rfl⟩ | rfl | ⟨x, rfl⟩ := hi
    · obtain hs | hs : s.sp.val < 16 ∨ s.sp.val = 16 := by omega
      · obtain rfl := Host.Outcome.next.inj ((execCall_of_lt nnn hs).symm.trans h)
        exact ⟨v, execCall_of_lt (s := s.setST v) nnn hs⟩
      · obtain rfl := Host.Outcome.next.inj ((execCall_of_full nnn hs).symm.trans h)
        exact ⟨v, execCall_of_full (s := s.setST v) nnn hs⟩
    · obtain hs | hs := Nat.eq_zero_or_pos s.sp.val
      · obtain rfl := Host.Outcome.next.inj ((execRet_of_empty hs).symm.trans h)
        exact ⟨v, execRet_of_empty (s := s.setST v) hs⟩
      · obtain rfl := Host.Outcome.next.inj ((execRet_of_pos hs).symm.trans h)
        exact ⟨v, execRet_of_pos (s := s.setST v) hs⟩
    · obtain rfl := Host.Outcome.next.inj h
      exact ⟨s.getV x, rfl⟩
  · obtain ⟨hstack, -, -⟩ := exec_keeps_stack_sp_ST hi h
    have hv := exec_setStack_setST hi h s.stack v
    rw [State.setStack_of_eq hstack] at hv
    exact ⟨v, hv⟩

/-- Settles O51: the fetch and the decode do not read ST, and `exec_setST` says it of the instruction. -/
theorem noStepReadsTheSoundTimer : Obligations.NoStepReadsTheSoundTimer := by
  intro s t v h
  obtain ⟨hf, ⟨hpc, rfl⟩ | ⟨hpc, ⟨e, hd⟩, rfl⟩ | ⟨i, hi, hx⟩⟩ := step_cases h
  · exact ⟨v, step_of_fetchFault (s := s.setST v) hf hpc⟩
  · exact ⟨v, step_of_illegal (s := s.setST v) hf hpc hd⟩
  · obtain ⟨w, hw⟩ := exec_setST hx v
    exact ⟨w, (step_of_runs (s := s.setST v) hf hi).trans hw⟩

/-! ### Stale stack entries -/

/-- `st` holds the pushed entries of the call stack, those below `sp`; its others may be any, as they are stale (R29). -/
def State.PushedIn (s : State) (st : Vector Word 16) : Prop := ∀ k : Fin 16, k.val < s.sp.val → st[k.val] = s.stack[k.val]

/-- After the same push onto both, both hold the same pushed entries. -/
theorem State.pushedIn_push {s : State} {st : Vector Word 16} (hst : s.PushedIn st) (v : Word) (h : s.sp.val < 16) :
    ((s.setStack (s.stack.set s.sp.val v)).setSP ⟨s.sp.val + 1, by omega⟩).PushedIn (st.set s.sp.val v) := by
  intro k hk
  simp only [State.stack_setSP, State.stack_setStack, Vector.getElem_set]
  split
  · rfl
  · next hne => exact hst k (Nat.lt_of_le_of_ne (Nat.le_of_lt_succ hk) (Ne.symm hne))

/-- An execution with the same pushed entries gives the same state but for stale entries: `CALL` overwrites the stale entry at `sp`
and `RET` reads a pushed one. -/
theorem exec_setStack {i : Instr} {s t : State} {st : Vector Word 16} (hst : s.PushedIn st) (h : exec i s = .next t) :
    ∃ st', exec i (s.setStack st) = .next (t.setStack st') ∧ t.PushedIn st' := by
  by_cases hi : UsesStackOrST i
  · obtain ⟨nnn, rfl⟩ | rfl | ⟨x, rfl⟩ := hi
    · obtain hs | hs : s.sp.val < 16 ∨ s.sp.val = 16 := by omega
      · obtain rfl := Host.Outcome.next.inj ((execCall_of_lt nnn hs).symm.trans h)
        exact ⟨_, execCall_of_lt (s := s.setStack st) nnn hs, State.pushedIn_push hst s.pc hs⟩
      · obtain rfl := Host.Outcome.next.inj ((execCall_of_full nnn hs).symm.trans h)
        exact ⟨st, execCall_of_full (s := s.setStack st) nnn hs, hst⟩
    · obtain hs | hs := Nat.eq_zero_or_pos s.sp.val
      · obtain rfl := Host.Outcome.next.inj ((execRet_of_empty hs).symm.trans h)
        exact ⟨st, execRet_of_empty (s := s.setStack st) hs, hst⟩
      · obtain rfl := Host.Outcome.next.inj ((execRet_of_pos hs).symm.trans h)
        have htop : st[s.sp.val - 1] = s.stack[s.sp.val - 1] := hst ⟨s.sp.val - 1, by omega⟩ (Nat.sub_one_lt_of_lt hs)
        refine ⟨st, ?_, fun k hk => hst k (Nat.lt_of_lt_pred hk)⟩
        rw [← htop]
        exact execRet_of_pos (s := s.setStack st) hs
    · obtain rfl := Host.Outcome.next.inj h
      exact ⟨st, rfl, hst⟩
  · obtain ⟨hstack, hsp, hST⟩ := exec_keeps_stack_sp_ST hi h
    refine ⟨st, ?_, fun k hk => ?_⟩
    · have hx := exec_setStack_setST hi h st s.ST
      rwa [State.setST_of_eq (s := t.setStack st) hST] at hx
    · rw [hstack]
      exact hst k (hsp ▸ hk)

/-- Settles O52: the fetch and the decode do not read the call stack, and `exec_setStack` says it of the instruction. -/
theorem noStepReadsAStaleStackEntry : Obligations.NoStepReadsAStaleStackEntry := by
  intro s t st hst h
  obtain ⟨hf, ⟨hpc, rfl⟩ | ⟨hpc, ⟨e, hd⟩, rfl⟩ | ⟨i, hi, hx⟩⟩ := step_cases h
  · exact ⟨st, step_of_fetchFault (s := s.setStack st) hf hpc, hst⟩
  · exact ⟨st, step_of_illegal (s := s.setStack st) hf hpc hd, hst⟩
  · obtain ⟨st', hx', hst'⟩ := exec_setStack (s := s.fetched) hst hx
    exact ⟨st', (step_of_runs (s := s.setStack st) hf hi).trans hx', hst'⟩

end Sys2Proof.Machine

/-! SUPPORT. Stores and memory (spec/20_memory.md): which bytes a step can change (R51), and that the next fetch reads what a store
wrote (R54, R66). -/

namespace Sys2Proof.Machine

/-- An address whose byte a write of bytes changes is one of those written. -/
theorem Memory.mem_range_of_read_writeBytes_ne {m : Memory} {a c : Nat} {bs : List Byte}
    (h : (m.writeBytes a bs).read c ≠ m.read c) : a ≤ c ∧ c < a + bs.length := by
  by_contra hout
  exact h (Memory.read_writeBytes_outside m a bs (by omega))

/-- Settles O48: by `exec_mem_cases` the execution kept memory or was one of the two stores, which wrote 3 bytes or X + 1. -/
theorem onlyTheTwoStoresWriteMemory : Obligations.OnlyTheTwoStoresWriteMemory := by
  intro s t a h hne
  obtain ⟨_, _, _, rfl⟩ | ⟨i, hi, hx⟩ := step_takeFault_or_exec h
  · exact absurd rfl hne
  · obtain hm | ⟨x, rfl, -, hm⟩ | ⟨x, rfl, -, hm⟩ := exec_mem_cases hx <;> rw [hm] at hne
    · exact absurd rfl hne
    · obtain ⟨hlo, hhi⟩ := Memory.mem_range_of_read_writeBytes_ne hne
      exact .inl ⟨x, hi, hlo, Nat.le_of_lt_succ hhi⟩
    · obtain ⟨hlo, hhi⟩ := Memory.mem_range_of_read_writeBytes_ne hne
      rw [List.length_map, length_blockRegs] at hhi
      exact .inr ⟨x, hi, hlo, Nat.le_of_lt_succ hhi⟩

/-- Settles O33: the fetch from I reads the bytes at I and I + 1, which the store made V0 and V1 (`read_storeBlock`). -/
theorem fetchSeesTheStore : Obligations.FetchSeesTheStore := by
  intro x s hm hx hb
  refine ⟨_, execLdMemVx_of_le x hb, ?_⟩
  have hpc : s.I.toNat ≤ 4094 := by unfold State.base at hb; omega
  have h0 := read_storeBlock s x 0 hm hb (Nat.zero_le _)
  have h1 := read_storeBlock s x 1 hm hb hx
  rw [State.fetchWord_of_le hpc, ← h0, ← h1]
  rfl

end Sys2Proof.Machine

/-! SUPPORT. Decoding against encoding (spec/30_encoding.md rules R80 to R87): the decoder reads back every well-formed instruction, and
a word it reads is put together again from the fields that were read. -/

namespace Sys2Proof

/-! ### Decoding what was encoded -/

/-- The decoder reads back every well-formed instruction, format by format: it dispatches on the fixed fields of the word and takes the
operands from the others. -/
theorem decodeWord_encode {i : Instr} (hi : i.wellFormed = true) : decodeWord (encode i) = .ok i := by
  cases i with
  | nop | cls | ret => rfl
  | jp nnn | call nnn | ldI nnn | jpV0 nnn =>
    have hnnn : nnn.toNat < 4096 := of_decide_eq_true hi
    simp [decodeWord, encode, opD1_encNNN, opNNN_encNNN, hnnn]
  | seImm | sneImm | ldImm | addImm | rnd =>
    simp [decodeWord, encode, opD1_encXNN, opX_encXNN, opNN_encXNN]
  | drw x y n =>
    have hn : n % 16 = n := Nat.mod_eq_of_lt (of_decide_eq_true hi)
    simp [decodeWord, encode, opD1_encXYN, opX_encXYN, opY_encXYN, opN_encXYN, hn]
  | seReg | ldReg | orReg | andReg | xorReg | addReg | subReg | shr | subn | shl | sneReg =>
    simp [decodeWord, encode, opD1_encXYN, opX_encXYN, opY_encXYN, opN_encXYN]
  | skp | sknp | ldVxDT | ldVxK | ldDTVx | ldSTVx | addI | ldF | ldB | ldMemVx | ldVxMem =>
    simp [decodeWord, encode, opD1_encX, opX_encX, opLow_encX]

/-- The bytes of an instruction are read as its word is, and the bytes after them are left (R80). -/
theorem decodeBytes_encodeBytes {i : Instr} (hi : i.wellFormed = true) (rest : List Byte) :
    decodeBytes (encodeBytes i ++ rest) = .ok (i, rest) := by
  simp [decodeBytes, encodeBytes, decodeWord_encode hi]

/-- Settles O1: `decodeWord_encode`, and for the bytes that the two bytes of a word make up that word. -/
theorem decodeInvertsEncode : Obligations.DecodeInvertsEncode :=
  fun _ hi => ⟨decodeWord_encode hi, decodeBytes_encodeBytes hi⟩

/-- Settles O4, by running the decoder on the nine words. -/
theorem specWordsDecode : Obligations.SpecWordsDecode := by
  unfold Obligations.SpecWordsDecode
  decide

theorem decodeWord_encXYN_shr (x y : Reg) : decodeWord (encXYN 0x8 x y 0x6) = .ok (.shr x) := by
  simp [decodeWord, opD1_encXYN, opX_encXYN, opN_encXYN]

theorem decodeWord_encXYN_shl (x y : Reg) : decodeWord (encXYN 0x8 x y 0xE) = .ok (.shl x) := by
  simp [decodeWord, opD1_encXYN, opX_encXYN, opN_encXYN]

/-- Settles O5: the words are those of format `xyn` with any Y, and the shifts' arms of the decoder do not read it. -/
theorem shiftsIgnoreTheYNibble : Obligations.ShiftsIgnoreTheYNibble := by
  intro x y
  have hshr : BitVec.ofNat 16 (0x8006 + x.val * 256 + y.val * 16) = encXYN 0x8 x y 0x6 :=
    congrArg (BitVec.ofNat 16) (by omega)
  have hshl : BitVec.ofNat 16 (0x800E + x.val * 256 + y.val * 16) = encXYN 0x8 x y 0xE :=
    congrArg (BitVec.ofNat 16) (by omega)
  exact ⟨(congrArg decodeWord hshr).trans (decodeWord_encXYN_shr x y), (congrArg decodeWord hshl).trans (decodeWord_encXYN_shl x y)⟩

/-! ### Encoding what was decoded -/

theorem encNNN_of_fields {w : Word} {op : Nat} (hd : opD1 w = op) : encNNN op (opNNN w) = w := by
  subst hd
  apply BitVec.eq_of_toNat_eq
  rw [toNat_encNNN _ (opD1_lt w), toNat_opNNN]
  unfold opD1
  omega

theorem encXNN_of_fields {w : Word} {op : Nat} (hd : opD1 w = op) : encXNN op (opX w) (opNN w) = w := by
  subst hd
  apply BitVec.eq_of_toNat_eq
  rw [toNat_encXNN _ _ (opD1_lt w), toNat_opNN]
  simp only [opD1, opX]
  omega

theorem encXYN_of_fields {w : Word} {op n : Nat} (hd : opD1 w = op) (hn : opN w = n) :
    encXYN op (opX w) (opY w) n = w := by
  subst hd hn
  apply BitVec.eq_of_toNat_eq
  rw [toNat_encXYN _ _ _ (opD1_lt w)]
  simp only [opD1, opX, opY, opN]
  omega

/-- With 0 for its Y nibble the word is less by 16 times that nibble. -/
theorem toNat_encXYN_zero_of_fields {w : Word} {op n : Nat} (hd : opD1 w = op) (hn : opN w = n) :
    (encXYN op (opX w) 0 n).toNat + w.toNat / 16 % 16 * 16 = w.toNat := by
  subst hd hn
  rw [toNat_encXYN _ _ _ (opD1_lt w)]
  simp only [opD1, opX, opN]
  omega

theorem encX_of_fields {w : Word} {op sub : Nat} (hd : opD1 w = op) (hs : opLow w = sub) : encX op (opX w) sub = w := by
  subst hd hs
  apply BitVec.eq_of_toNat_eq
  rw [toNat_encX _ (opLow w) (opD1_lt w) (Nat.mod_lt _ (by decide))]
  simp only [opD1, opX, opLow]
  omega

theorem fitsNNN_opNNN (w : Word) : fitsNNN (opNNN w) = true :=
  decide_eq_true ((toNat_opNNN w).trans_lt (Nat.mod_lt _ (by decide)))

theorem fitsN_opN (w : Word) : fitsN (opN w) = true := decide_eq_true (opN_lt w)

/-- Settles O2: arm by arm of the decoder, `h_1` for first nibble 0 to `h_16` for F, the word is put together again from the fields the
arm read. -/
theorem decodedInstructionReencodes : Obligations.DecodedInstructionReencodes := by
  intro w i h
  unfold decodeWord at h
  split at h
  case h_2 hd | h_3 hd | h_11 hd | h_12 hd =>
    obtain rfl := Except.ok.inj h
    exact ⟨fitsNNN_opNNN w, encNNN_of_fields hd⟩
  case h_4 hd | h_5 hd | h_7 hd | h_8 hd | h_13 hd =>
    obtain rfl := Except.ok.inj h
    exact ⟨rfl, encXNN_of_fields hd⟩
  case h_14 hd =>
    obtain rfl := Except.ok.inj h
    exact ⟨fitsN_opN w, encXYN_of_fields hd rfl⟩
  case h_1 =>
    split at h <;> cases h
    all_goals next hw => exact ⟨rfl, BitVec.eq_of_toNat_eq hw.symm⟩
  case h_6 hd | h_10 hd =>
    split at h <;> cases h
    next hn => exact ⟨rfl, encXYN_of_fields hd hn⟩
  case h_9 hd =>
    split at h <;> cases h
    case h_7.refl hn | h_9.refl hn => exact ⟨rfl, toNat_encXYN_zero_of_fields hd hn⟩
    all_goals next hn => exact ⟨rfl, encXYN_of_fields hd hn⟩
  case h_15 hd =>
    split at h <;> cases h
    all_goals next hs => exact ⟨rfl, encX_of_fields hd hs⟩
  case h_16 =>
    have hd : opD1 w = 0xF := by
      have := opD1_lt w
      simp only [imp_false] at *
      omega
    split at h <;> cases h
    all_goals next hs => exact ⟨rfl, encX_of_fields hd hs⟩

end Sys2Proof

/-! SUPPORT. The illegal words (spec/30_encoding.md rules R88, R89): the decoder rejects those the table lists and no other, and how many
the table lists. -/

namespace Sys2Proof.Machine

/-! ### The decoder's rejections -/

/-- The table of R89, group by group. -/
theorem illegalListed_iff (n : Nat) : illegalListed n = true ↔
    n / 4096 = 0x0 ∧ n ≠ 0x0000 ∧ n ≠ 0x00E0 ∧ n ≠ 0x00EE ∨
    n / 4096 = 0x5 ∧ n % 16 ≠ 0 ∨
    n / 4096 = 0x8 ∧ n % 16 ∈ [0x8, 0x9, 0xA, 0xB, 0xC, 0xD, 0xF] ∨
    n / 4096 = 0x9 ∧ n % 16 ≠ 0 ∨
    n / 4096 = 0xE ∧ n % 256 ≠ 0x9E ∧ n % 256 ≠ 0xA1 ∨
    n / 4096 = 0xF ∧ n % 256 ∉ [0x07, 0x0A, 0x15, 0x18, 0x1E, 0x29, 0x33, 0x55, 0x65] := by
  simp [illegalListed, and_assoc, or_assoc]

/-- The decoder rejects every listed word, under the name of its group. -/
theorem decodeWord_of_illegalListed {w : Word} (h : illegalListed w.toNat = true) :
    ∃ g, decodeWord w = .error (.illegal g w) := by
  obtain ⟨hd, hw⟩ | ⟨hd, hn⟩ | ⟨hd, hn⟩ | ⟨hd, hn⟩ | ⟨hd, hs⟩ | ⟨hd, hs⟩ := (illegalListed_iff _).mp h <;>
    change opD1 w = _ at hd
  · exact ⟨.group0nnn, by simp [decodeWord, hd, hw]⟩
  · exact ⟨.group5xyn, by simp [decodeWord, hd, opN]⟩
  · refine ⟨.group8xyn, ?_⟩
    simp only [List.mem_cons, List.not_mem_nil, or_false] at hn
    obtain hn | hn | hn | hn | hn | hn | hn := hn <;> simp [decodeWord, hd, opN, hn]
  · exact ⟨.group9xyn, by simp [decodeWord, hd, opN]⟩
  · exact ⟨.groupExnn, by simp [decodeWord, hd, opLow, hs]⟩
  · exact ⟨.groupFxnn, by simp_all [decodeWord, opLow]⟩

/-- The decoder rejects no other word: each of its six rejections says what its group in the table says. -/
theorem illegalListed_of_decodeWord {w : Word} {e : DecodeError} (h : decodeWord w = .error e) :
    illegalListed w.toNat = true := by
  rw [illegalListed_iff]
  unfold decodeWord at h
  split at h <;> try cases h
  case h_1 hd =>
    split at h <;> cases h
    next h0 hE0 hEE => exact .inl ⟨hd, h0, hE0, hEE⟩
  case h_6 hd =>
    split at h <;> cases h
    next hn => exact .inr (.inl ⟨hd, hn⟩)
  case h_9 hd =>
    have hlt := opN_lt w
    split at h <;> cases h
    refine .inr (.inr (.inl ⟨hd, ?_⟩))
    simp only [opN, imp_false] at *
    simp only [List.mem_cons, List.not_mem_nil, or_false]
    omega
  case h_10 hd =>
    split at h <;> cases h
    next hn => exact .inr (.inr (.inr (.inl ⟨hd, hn⟩)))
  case h_15 hd =>
    split at h <;> cases h
    next h9E hA1 => exact .inr (.inr (.inr (.inr (.inl ⟨hd, h9E, hA1⟩))))
  case h_16 =>
    have hd : opD1 w = 0xF := by
      have := opD1_lt w
      simp only [imp_false] at *
      omega
    split at h <;> cases h
    refine .inr (.inr (.inr (.inr (.inr ⟨hd, ?_⟩))))
    simp_all [opLow]

theorem decodeWord_error_iff (w : Word) : (∃ e, decodeWord w = .error e) ↔ illegalListed w.toNat = true := by
  constructor
  · rintro ⟨e, h⟩
    exact illegalListed_of_decodeWord h
  · intro h
    obtain ⟨g, hg⟩ := decodeWord_of_illegalListed h
    exact ⟨_, hg⟩

/-! ### How many words the table lists -/

/-- A count over `k` blocks of `m` numbers is the sum of the counts over the blocks. -/
theorem countP_range_mul (p : Nat → Bool) (k m : Nat) :
    (List.range (k * m)).countP p = ((List.range k).map fun j => (List.range m).countP fun r => p (j * m + r)).sum := by
  induction k with
  | zero => simp
  | succ k ih =>
    rw [Nat.succ_mul, List.range_add, List.countP_append, List.countP_map, ih, List.range_succ, List.map_append,
      List.sum_append]
    simp [Function.comp_def]

/-- A property of the remainder modulo `m` holds as often in each of `k` blocks of `m` numbers. -/
theorem countP_range_mod (p : Nat → Bool) (k m : Nat) :
    (List.range (k * m)).countP (fun n => p (n % m)) = k * (List.range m).countP p := by
  have hfirst : (List.range m).countP (fun r => p (r % m)) = (List.range m).countP p :=
    List.countP_congr fun r hr => by rw [Nat.mod_eq_of_lt (List.mem_range.mp hr)]
  simp [countP_range_mul, hfirst]

/-- All numbers below `m` but those of a list are outside the list. -/
theorem countP_range_not_contains {l : List Nat} {m : Nat} (hl : l.Nodup) (hm : ∀ x ∈ l, x < m) :
    (List.range m).countP (fun n => !l.contains n) = m - l.length := by
  have hperm : ((List.range m).filter l.contains).Perm l :=
    (List.perm_ext_iff_of_nodup (List.nodup_range.filter _) hl).mpr fun x => by simpa using hm x
  have hin : (List.range m).countP l.contains = l.length := by rw [List.countP_eq_length_filter, hperm.length_eq]
  have hsum := List.length_eq_countP_add_countP l.contains (l := List.range m)
  rw [List.length_range, hin] at hsum
  simp only [Bool.not_eq_true, Bool.decide_eq_false] at hsum
  omega

/-- Whether a word with first nibble `d` is legal depends on its remainder modulo this number alone. -/
def tailSize (d : Nat) : Nat :=
  match d with
  | 0x0 => 4096
  | 0x5 | 0x8 | 0x9 => 16
  | 0xE | 0xF => 256
  | _ => 1

/-- The remainders that make a word with first nibble `d` legal (R87). -/
def legalTails (d : Nat) : List Nat :=
  match d with
  | 0x0 => [0x000, 0x0E0, 0x0EE]
  | 0x8 => [0x0, 0x1, 0x2, 0x3, 0x4, 0x5, 0x6, 0x7, 0xE]
  | 0xE => [0x9E, 0xA1]
  | 0xF => [0x07, 0x0A, 0x15, 0x18, 0x1E, 0x29, 0x33, 0x55, 0x65]
  | _ => [0]

theorem illegalListed_block {d r : Nat} (hd : d < 16) (hr : r < 4096) :
    illegalListed (d * 4096 + r) = !(legalTails d).contains (r % tailSize d) := by
  have hquot : (d * 4096 + r) / 4096 = d := by omega
  have h16 : (d * 4096 + r) % 16 = r % 16 := by omega
  have h256 : (d * 4096 + r) % 256 = r % 256 := by omega
  rw [Bool.eq_iff_iff]
  unfold illegalListed
  rw [hquot, h16, h256]
  interval_cases d <;> simp [legalTails, tailSize, Nat.mod_one, Nat.mod_eq_of_lt hr] <;> omega

/-- How many words with first nibble `d` the table lists: of the numbers below `tailSize d` all but the legal ones, in every block of
that size. For the six groups these are the table's own counts (R89). -/
theorem countP_illegalListed_block {d : Nat} (hd : d < 16) :
    (List.range 4096).countP (fun r => illegalListed (d * 4096 + r)) =
      4096 / tailSize d * (tailSize d - (legalTails d).length) := by
  have htails : (legalTails d).Nodup ∧ (∀ x ∈ legalTails d, x < tailSize d) ∧ 4096 / tailSize d * tailSize d = 4096 := by
    revert d
    decide
  obtain ⟨hnodup, hlt, hsize⟩ := htails
  calc
    _ = (List.range (4096 / tailSize d * tailSize d)).countP fun r => !(legalTails d).contains (r % tailSize d) := by
      rw [hsize]
      exact List.countP_congr fun r hr => by rw [illegalListed_block hd (List.mem_range.mp hr)]
    _ = _ := by rw [countP_range_mod (fun n => !(legalTails d).contains n), countP_range_not_contains hnodup hlt]

/-- The total of the table (R89), as the sum of its groups. -/
theorem length_filter_illegalListed : ((List.range 65536).filter illegalListed).length = 21581 := by
  rw [← List.countP_eq_length_filter, show 65536 = 16 * 4096 from rfl, countP_range_mul,
    List.map_congr_left fun d hd => countP_illegalListed_block (List.mem_range.mp hd)]
  decide

end Sys2Proof.Machine

/-! SUPPORT. What a step latches (spec/30_encoding.md rules R82 to R84, R88, R89, R91, spec/60_exceptions.md rules R231 to R234): the
record that the tables give, with all else as it was, and the step port's reply (R253). -/

namespace Sys2Proof.Machine

/-! ### The step's three ways -/

/-- Settles O6: `step_of_runs`. -/
theorem stepRunsTheDecodedInstruction : Obligations.StepRunsTheDecodedInstruction :=
  fun _ _ h hpc hd => step_of_runs h ⟨Nat.le_of_succ_le_succ hpc, hd⟩

/-- A fault taken at the pc changes the latch alone (R234). -/
theorem frameAt_takeFault (s : State) (c : FaultCause) (op : Option Word) (info : FaultInfo) :
    FrameAt [] [.fault] s (s.takeFault c s.pc op info) := by
  refine ⟨⟨fun _ _ => rfl, fun p hp => ?_⟩, rfl⟩
  cases p with
  | fault => exact absurd (List.mem_singleton.mpr rfl) hp
  | random => exact ⟨rfl, rfl⟩
  | mem => exact fun _ => rfl
  | I | stack | sp | disp | keys | DT | ST => rfl

/-- Settles O7: the fault of `step_of_fetchFault` is taken at the pc. -/
theorem fetchPastMemoryFaults : Obligations.FetchPastMemoryFaults :=
  fun s h hpc => ⟨_, step_of_fetchFault h hpc, rfl, frameAt_takeFault s _ _ _⟩

/-- The word at the pc is rejected exactly when the table lists it. -/
theorem State.decodeWord_wordAtPC_error_iff (s : State) :
    (∃ e, decodeWord (BitVec.ofNat 16 s.wordAtPC) = .error e) ↔ illegalListed s.wordAtPC = true := by
  rw [decodeWord_error_iff, BitVec.toNat_ofNat, Nat.mod_eq_of_lt s.wordAtPC_lt]

/-- Settles O8: the decoder rejects the listed word, and the fault of `step_of_illegal` is taken at the pc. -/
theorem illegalWordFaults : Obligations.IllegalWordFaults := by
  intro s h hpc hlisted
  obtain ⟨e, he⟩ := s.decodeWord_wordAtPC_error_iff.mpr hlisted
  exact ⟨_, step_of_illegal h hpc he, frameAt_takeFault s _ _ _, rfl⟩

/-! ### The record of the tables -/

theorem State.faultOfStep_of_gt {s : State} (hpc : 4095 ≤ s.pc.toNat) :
    s.faultOfStep = some ⟨.fetchOutOfBounds, s.pc, none, .address s.pc⟩ := if_pos hpc

theorem State.faultOfStep_of_illegal {s : State} {e : DecodeError} (hpc : s.pc.toNat ≤ 4094)
    (hd : decodeWord (BitVec.ofNat 16 s.wordAtPC) = .error e) :
    s.faultOfStep = some ⟨.unimplementedOpcode, s.pc, some (BitVec.ofNat 16 s.wordAtPC),
      .opcode (BitVec.ofNat 16 s.wordAtPC)⟩ := by
  unfold State.faultOfStep
  rw [if_neg (by omega), hd]

theorem State.faultOfStep_of_runs {s : State} {i : Instr} (hr : s.runs i) :
    s.faultOfStep = (ownFault i s).map fun f => ⟨f.1, s.pc, some (BitVec.ofNat 16 s.wordAtPC), f.2⟩ := by
  obtain ⟨hpc, hd⟩ := hr
  unfold WordOf at hd
  unfold State.faultOfStep
  rw [if_neg (by omega), hd]
  dsimp only
  cases ownFault i s <;> rfl

/-- An instruction whose own check fails is encoded as the word it was read from: it is neither of the shifts (log entry 3). -/
theorem encode_of_ownFault {w : Word} {i : Instr} {s : State} {f : FaultCause × FaultInfo} (hd : decodeWord w = .ok i)
    (hf : ownFault i s = some f) : encode i = w := by
  obtain ⟨-, henc⟩ := decodedInstructionReencodes w i hd
  cases i with
  | shr | shl => cases hf
  | _ => exact henc

/-- From an open latch a step gives a next state, whose latch holds what the tables of causes, records and priorities give (R231 to
R233). -/
theorem step_latches_faultOfStep {s : State} (h : s.fault = none) : ∃ t, step s = .next t ∧ t.fault = s.faultOfStep := by
  obtain hpc | hpc := Nat.lt_or_ge 4094 s.pc.toNat
  · exact ⟨_, step_of_fetchFault h hpc, (State.faultOfStep_of_gt hpc).symm⟩
  · cases hd : decodeWord (BitVec.ofNat 16 s.wordAtPC) with
    | error e => exact ⟨_, step_of_illegal h hpc hd, (State.faultOfStep_of_illegal hpc hd).symm⟩
    | ok i =>
      have hr : s.runs i := ⟨hpc, hd⟩
      obtain ⟨t, ht⟩ := exec_next i s.fetched
      refine ⟨t, (step_of_runs h hr).trans ht, ?_⟩
      rw [exec_fault ht, ownFault_fetched, State.pc_fetched_sub, State.faultOfStep_of_runs hr]
      cases hown : ownFault i s with
      | none => exact h
      | some f => rw [encode_of_ownFault hd hown]; rfl

/-! ### The step port -/

/-- The tables do not look at the random input. -/
@[simp] theorem State.faultOfStep_withRandom (s : State) (r : Byte) : (s.withRandom r).faultOfStep = s.faultOfStep := rfl

theorem stepPort_of_next {r : Byte} {s t : State} (h : step (s.withRandom r) = .next t) :
    stepPort r s = (t.withoutRandom, stepReply t) := by
  unfold stepPort
  rw [h]

/-- Settles O56: the port's reply reads the latch after the step, which holds what the tables give. -/
theorem stepPortIsOneStep : Obligations.StepPortIsOneStep := by
  intro r s h
  obtain ⟨t, ht, hfault⟩ := step_latches_faultOfStep (s := s.withRandom r) h
  rw [State.faultOfStep_withRandom] at hfault
  refine ⟨t, ht, ?_⟩
  rw [stepPort_of_next ht, ← hfault]
  exact ⟨rfl, rfl⟩

/-! ### UNIMPLEMENTED_OPCODE -/

/-- No instruction's own check raises UNIMPLEMENTED_OPCODE (R231). -/
theorem ownFault_cause_ne {i : Instr} {s : State} {f : FaultCause × FaultInfo} (h : ownFault i s = some f) :
    f.1 ≠ .unimplementedOpcode := by
  intro hc
  cases i <;> simp [ownFault] at h <;> simp [← h.2] at hc

/-- The tables give UNIMPLEMENTED_OPCODE for a rejected word alone. -/
theorem State.decodeWord_error_of_faultOfStep {s : State} {f : FaultRecord} (hpc : s.pc.toNat ≤ 4094)
    (hf : s.faultOfStep = some f) (hc : f.cause = .unimplementedOpcode) :
    ∃ e, decodeWord (BitVec.ofNat 16 s.wordAtPC) = .error e := by
  cases hd : decodeWord (BitVec.ofNat 16 s.wordAtPC) with
  | error e => exact ⟨e, rfl⟩
  | ok i =>
    rw [State.faultOfStep_of_runs ⟨hpc, hd⟩] at hf
    obtain ⟨g, hown, rfl⟩ := Option.map_eq_some_iff.mp hf
    exact absurd hc (ownFault_cause_ne hown)

/-- Settles O3: the decoder's rejections, the count of the table, and that the latch holds UNIMPLEMENTED_OPCODE for a rejected word
alone. -/
theorem illegalWordsAreTheListed : Obligations.IllegalWordsAreTheListed := by
  refine ⟨decodeWord_error_iff, length_filter_illegalListed, fun s h hpc => ⟨?_, fun hlisted => ?_⟩⟩
  · rintro ⟨t, f, ht, hf, hc, -⟩
    obtain ⟨u, hu, hlatch⟩ := step_latches_faultOfStep h
    obtain rfl : u = t := Host.Outcome.next.inj (hu.symm.trans ht)
    exact s.decodeWord_wordAtPC_error_iff.mp (State.decodeWord_error_of_faultOfStep hpc (hlatch.symm.trans hf) hc)
  · obtain ⟨t, ht, -, hf⟩ := illegalWordFaults s h hpc hlisted
    exact ⟨t, _, ht, hf, rfl, rfl⟩

end Sys2Proof.Machine

/-! SUPPORT. Control flow (spec/41_control_flow.md rules R110 to R121): the bounds of the pc and of the stack entries, kept by every
step and every host call, and what each control instruction does. -/

namespace Sys2Proof.Machine

/-! ### The bounds of the pc and the stack entries (R121) -/

/-- The decoder gives a step no operand that does not fit its field. -/
theorem State.wellFormed_of_runs {s : State} {i : Instr} (h : s.runs i) : i.wellFormed = true :=
  (decodedInstructionReencodes _ i h.2).1

/-- All that an execution does to the stack's entries: nothing, or one of them becomes the pc, which is `CALL`'s return address. -/
theorem exec_stack_cases {i : Instr} {s t : State} (h : exec i s = .next t) :
    t.stack = s.stack ∨ ∃ k : Fin 16, t.stack = s.stack.set k.val s.pc := by
  obtain ⟨-, -, -, -, -, hst | ⟨nnn, rfl⟩, -⟩ := exec_part_writers h
  · exact .inl hst
  · by_cases hsp : s.sp.val < 16
    · obtain rfl := Host.Outcome.next.inj ((execCall_of_lt nnn hsp).symm.trans h)
      exact .inr ⟨⟨s.sp.val, hsp⟩, rfl⟩
    · obtain rfl := Host.Outcome.next.inj ((execCall_of_full nnn (by omega)).symm.trans h)
      exact .inl rfl

/-- A well-formed instruction fetched from inside memory keeps the bounds: the pc it leaves is within 2 of `a + 2`, a 12-bit address, V0
plus such an address, or a stack entry; and the entry it may push is `a + 2`. -/
theorem exec_fetched_keeps_pcBounded {i : Instr} {s t : State} (hs : s.pcBounded) (hi : i.wellFormed = true)
    (ha : s.pc.toNat ≤ 4094) (h : exec i s.fetched = .next t) : t.pcBounded := by
  obtain ⟨-, hentries⟩ := hs
  have hfetched : s.fetched.pc.toNat = s.pc.toNat + 2 := by rw [State.pc_fetched]; bv_omega
  constructor
  · obtain hpc | hpc | hpc | ⟨nnn, hjump, hpc⟩ | ⟨nnn, rfl, hpc⟩ | ⟨-, k, hpc⟩ := exec_pc_cases h <;> rw [hpc]
    · omega
    · bv_omega
    · rw [State.pc_fetched_sub]; omega
    · have hnnn : nnn.toNat < 4096 := by
        obtain rfl | rfl := hjump <;> exact of_decide_eq_true hi
      omega
    · have hnnn : nnn.toNat < 4096 := of_decide_eq_true hi
      have hV0 := (s.fetched.getV 0).isLt
      rw [toNat_offsetTarget _ hnnn]
      omega
    · exact (hentries k).trans (by decide)
  · intro j
    obtain hst | ⟨k, hst⟩ := exec_stack_cases h <;> simp only [hst, State.stack_fetched]
    · exact hentries j
    · rw [Vector.getElem_set]
      split
      · omega
      · exact hentries j

/-- Settles O43: a fault of fetch or decode leaves pc and stack as they were, and a step that executes fetched from 4094 or below. -/
theorem stepKeepsThePCBounded : Obligations.StepKeepsThePCBounded := by
  intro s t hs h
  obtain ⟨_, _, _, rfl⟩ | ⟨i, hi, hx⟩ := step_takeFault_or_exec h
  · exact hs
  · exact exec_fetched_keeps_pcBounded hs (State.wellFormed_of_runs hi) hi.1 hx

/-! ### The invariants over the host's calls (R250) -/

/-- What the step port leaves: the block as it was, or the state of the step with the random input taken off again. -/
theorem stepPort_state_cases (r : Byte) (s : State) :
    (stepPort r s).1 = s ∨ ∃ t, step (s.withRandom r) = .next t ∧ (stepPort r s).1 = t.withoutRandom := by
  unfold stepPort
  split
  · next t ht => exact .inr ⟨t, ht, rfl⟩
  · exact .inl rfl
  · exact .inl rfl

theorem step_keeps_inv {s t : State} (hs : s.Inv) (h : step s = .next t) : t.Inv := by
  obtain ⟨hmem, hpc⟩ := hs
  exact ⟨stepKeepsMemoryCanonical s t hmem h, stepKeepsThePCBounded s t hpc h⟩

theorem loadPort_keeps_inv (bytes : List Byte) {s : State} (hs : s.Inv) : (loadPort bytes s).1.Inv := by
  obtain ⟨hmem, hpc⟩ := hs
  unfold loadPort
  split
  · next hb => exact ⟨Memory.wf_writeBytes bytes hmem ((inBounds_iff _ _).mp hb), hpc⟩
  · exact ⟨hmem, hpc⟩

theorem keypressPort_keeps_inv (index : Nat) (pressed : Bool) {s : State} (hs : s.Inv) :
    (keypressPort index pressed s).1.Inv := by
  unfold keypressPort
  split <;> exact hs

theorem reset_inv : State.reset.Inv := ⟨rfl, by decide, by decide⟩

theorem transact_keeps_inv (c : HostCall) {s : State} (hs : s.Inv) : (transact c s).1.Inv := by
  cases c with
  | load bytes => exact loadPort_keeps_inv bytes hs
  | step r =>
    obtain hsame | ⟨t, ht, hnext⟩ := stepPort_state_cases r s
    · exact hsame.symm ▸ hs
    · have ht : t.Inv := step_keeps_inv (s := s.withRandom r) hs ht
      exact hnext.symm ▸ ht
  | keypress index pressed => exact keypressPort_keeps_inv index pressed hs
  | tickTimers | displaySnapshot => exact hs
  | reset => exact reset_inv

theorem session_cons_state (c : HostCall) (cs : List HostCall) (s : State) :
    (session (c :: cs) s).1 = (session cs (transact c s).1).1 := rfl

/-- Settles O45, by induction on the calls: each keeps both invariants. -/
theorem everySessionKeepsTheInvariants : Obligations.EverySessionKeepsTheInvariants := by
  intro cs
  induction cs with
  | nil => exact fun _ hs => hs
  | cons c cs ih =>
    intro s hs
    rw [session_cons_state]
    exact ih _ (transact_keeps_inv c hs)

/-! ### Words and frames -/

/-- The word of a well-formed instruction, given as a number. -/
theorem wordOf_of_encode {w : Nat} {i : Instr} (hi : i.wellFormed = true) (hw : encode i = BitVec.ofNat 16 w) : WordOf w i := by
  unfold WordOf
  rw [← hw, decodeWord_encode hi]

theorem encNNN_eq_ofNat (op : Nat) {nnn : Word} (h : nnn.toNat < 4096) :
    encNNN op nnn = BitVec.ofNat 16 (op * 4096 + nnn.toNat) := by
  rw [encNNN, Nat.mod_eq_of_lt h]

theorem Frame.refl (regs : List Reg) (parts : List Part) (s : State) : Frame regs parts s s := by
  refine ⟨fun _ _ => rfl, fun p _ => ?_⟩
  cases p with
  | random => exact ⟨rfl, rfl⟩
  | mem => exact fun _ => rfl
  | I | stack | sp | disp | keys | DT | ST | fault => rfl

section
variable {regs : List Reg} {parts : List Part} {s t : State}

/-- A frame does not speak of the pc. -/
theorem Frame.setPC (h : Frame regs parts s t) (v : Word) : Frame regs parts s (t.setPC v) := by
  obtain ⟨hregs, hparts⟩ := h
  refine ⟨hregs, fun p hp => ?_⟩
  cases p <;> exact hparts _ hp

theorem Frame.of_setPC {v : Word} (h : Frame regs parts (s.setPC v) t) : Frame regs parts s t := by
  obtain ⟨hregs, hparts⟩ := h
  refine ⟨hregs, fun p hp => ?_⟩
  cases p <;> exact hparts _ hp

theorem Frame.setSP (h : Frame regs parts s t) (hsp : Part.sp ∈ parts) (n : Fin 17) : Frame regs parts s (t.setSP n) := by
  obtain ⟨hregs, hparts⟩ := h
  refine ⟨hregs, fun p hp => ?_⟩
  cases p with
  | sp => exact absurd hsp hp
  | _ => exact hparts _ hp

theorem Frame.setStack (h : Frame regs parts s t) (hstack : Part.stack ∈ parts) (st : Vector Word 16) :
    Frame regs parts s (t.setStack st) := by
  obtain ⟨hregs, hparts⟩ := h
  refine ⟨hregs, fun p hp => ?_⟩
  cases p with
  | stack => exact absurd hstack hp
  | _ => exact hparts _ hp

theorem Frame.skipIf (h : Frame regs parts s t) (c : Bool) : Frame regs parts s (t.skipIf c) := by
  cases c with
  | false => exact h
  | true => exact h.setPC _

end

/-- A fault raised in the execute stage is one taken: the pc is back at the instruction and nothing else but the latch changed
(R234). -/
theorem raiseFault_tookFault (c : FaultCause) (info : FaultInfo) (i : Instr) (s : State) :
    ∃ t, raiseFault c info i s = .next t ∧ TookFault c (encode i) info s t :=
  ⟨_, rfl, (frameAt_takeFault (s.setPC (s.pc - 2)) c _ info).1.of_setPC, rfl, rfl⟩

/-! ### Call and return -/

/-- After a call the return leaves nothing of the two but the entry the call wrote: pc and `sp` are those the call had. -/
theorem execRet_after_call {s : State} (nnn p : Word) (h : s.sp.val < 16) :
    execRet ((((s.setStack (s.stack.set s.sp.val s.pc)).setSP ⟨s.sp.val + 1, by omega⟩).setPC nnn).setPC p) =
      .next (s.setStack (s.stack.set s.sp.val s.pc)) := by
  rw [execRet_of_pos (Nat.succ_pos _)]
  simp [State.setStack, State.setSP, State.setPC]

/-- Settles O16: `execRet_after_call` at the state the call gives. -/
theorem returnResumesAfterCall : Obligations.ReturnResumesAfterCall :=
  fun nnn s p h => ⟨_, _, execCall_of_lt nnn h, execRet_after_call nnn p h, rfl, rfl,
    (Frame.refl _ _ s).setStack (List.mem_singleton.mpr rfl) _⟩

/-- Settles O13: `execRet` in its two cases. -/
theorem retPopsThePC : Obligations.RetPopsThePC := by
  refine ⟨wordOf_of_encode rfl rfl, fun s => ⟨fun k hk => ?_, fun h0 => ?_⟩⟩
  · refine ⟨_, execRet_of_pos (by omega), ?_, ?_, ((Frame.refl _ _ s).setSP (List.mem_singleton.mpr rfl) _).setPC _⟩
    · simp [hk]
    · simp [hk]
  · obtain ⟨t, ht, hfault⟩ := raiseFault_tookFault .stackUnderflow .none .ret s
    exact ⟨t, (execRet_of_empty h0).trans ht, hfault⟩

/-- Settles O15: `execCall` in its two cases. -/
theorem callPushesTheReturnAddress : Obligations.CallPushesTheReturnAddress := by
  intro nnn hnnn
  have henc : encode (.call nnn) = BitVec.ofNat 16 (0x2000 + nnn.toNat) := encNNN_eq_ofNat 2 hnnn
  refine ⟨wordOf_of_encode (decide_eq_true hnnn) henc, fun s => ⟨fun k hk => ?_, fun hfull => ?_⟩⟩
  · refine ⟨_, execCall_of_lt nnn (hk ▸ k.isLt), ?_, fun j hj => ?_, ?_, rfl,
      (((Frame.refl _ _ s).setStack (by decide) _).setSP (by decide) _).setPC _⟩
    · simp [hk]
    · have hne : k.val ≠ j.val := fun he => hj (Fin.ext he.symm)
      simp [hk, Vector.getElem_set_ne, hne]
    · simp [hk]
  · obtain ⟨t, ht, hfault⟩ := raiseFault_tookFault .stackOverflow .none (.call nnn) s
    exact ⟨t, (execCall_of_full nnn hfull).trans ht, henc ▸ hfault⟩

/-! ### NOP and the jumps -/

/-- Two bytes 0 at the pc are the word of `NOP`. -/
theorem State.runs_nop_of_read_zero {s : State} (hpc : s.pc.toNat ≤ 4094) (hhi : s.mem.read s.pc.toNat = 0)
    (hlo : s.mem.read (s.pc.toNat + 1) = 0) : s.runs .nop := by
  have hw : s.wordAtPC = 0x0000 := by unfold State.wordAtPC; rw [hhi, hlo]; rfl
  exact ⟨hpc, wordOf_of_encode rfl (congrArg (BitVec.ofNat 16) hw).symm⟩

/-- Settles O12: in a step at 0000 the fetch's advance of the pc, which cannot wrap, is all. -/
theorem nopOnlyAdvancesThePC : Obligations.NopOnlyAdvancesThePC := by
  refine ⟨wordOf_of_encode rfl rfl, fun s => ⟨s, rfl, Frame.refl _ _ s, rfl⟩, fun s h hpc hhi hlo => ?_⟩
  have hstep : step s = .next s.fetched := step_of_runs h (State.runs_nop_of_read_zero hpc hhi hlo)
  refine ⟨_, hstep, ?_, (Frame.refl _ _ s).setPC _⟩
  rw [State.pc_fetched]
  bv_omega

/-- Settles O14: `JP` writes the pc, which no frame speaks of. -/
theorem jpSetsThePC : Obligations.JpSetsThePC :=
  fun nnn hnnn => ⟨wordOf_of_encode (decide_eq_true hnnn) (encNNN_eq_ofNat 1 hnnn),
    fun s => ⟨_, rfl, rfl, (Frame.refl _ _ s).setPC nnn⟩⟩

/-- Settles O19: V0 plus a 12-bit address does not reach 65536 (`toNat_offsetTarget`). -/
theorem jpV0AddsTheOffset : Obligations.JpV0AddsTheOffset :=
  fun _ hnnn => ⟨wordOf_of_encode (decide_eq_true hnnn) (encNNN_eq_ofNat 0xB hnnn),
    fun s => ⟨_, rfl, toNat_offsetTarget (s.getV 0) hnnn, (Frame.refl _ _ s).setPC _⟩⟩

/-! ### The skips (R115) -/

/-- The outcome of each skip instruction: the pc moves exactly when the condition holds, and nothing else does. -/
theorem skipIf_outcome (s : State) {c : Bool} {P : Prop} [Decidable P] (hc : c = true ↔ P) :
    ∃ t, Host.Outcome.next (s.skipIf c) = (.next t : Host.Outcome State Fault Refusal) ∧
      t.pc = (if P then s.pc + 2 else s.pc) ∧ Frame [] [] s t :=
  ⟨_, rfl, (State.pc_skipIf s c).trans (if_congr hc rfl rfl), (Frame.refl _ _ s).skipIf c⟩

/-- Settles O17: both are skips on the comparison of VX with NN. -/
theorem immediateSkips : Obligations.ImmediateSkips :=
  fun _ _ => ⟨wordOf_of_encode rfl rfl, wordOf_of_encode rfl rfl,
    fun s => ⟨skipIf_outcome s beq_iff_eq, skipIf_outcome s bne_iff_ne⟩⟩

/-- Settles O18: both are skips on the comparison of VX with VY. -/
theorem registerSkips : Obligations.RegisterSkips :=
  fun _ _ => ⟨wordOf_of_encode rfl rfl, wordOf_of_encode rfl rfl,
    fun s => ⟨skipIf_outcome s beq_iff_eq, skipIf_outcome s bne_iff_ne⟩⟩

end Sys2Proof.Machine

/-! SUPPORT. Register loads, the ALU and the random byte (spec/42_alu.md rules R140 to R155): the words of format `xyn` as numbers, the
frame of a register write and of a result with its flag, and the flags as numbers. -/

namespace Sys2Proof.Machine

theorem encXYN_eq_ofNat (op : Nat) (x y : Reg) {n : Nat} (h : n < 16) :
    encXYN op x y n = BitVec.ofNat 16 (op * 4096 + n + x.val * 256 + y.val * 16) := by
  rw [encXYN, Nat.mod_eq_of_lt h]
  exact congrArg (BitVec.ofNat 16) (by omega)

/-! ### Frames of register writes and of the random input -/

section
variable {regs : List Reg} {parts : List Part} {s t : State}

theorem Frame.setV {x : Reg} (h : Frame regs parts s t) (hx : x ∈ regs) (v : Byte) : Frame regs parts s (t.setV x v) := by
  obtain ⟨hregs, hparts⟩ := h
  refine ⟨fun y hy => ?_, fun p hp => ?_⟩
  · have hne : y ≠ x := fun he => hy (he ▸ hx)
    rw [State.getV_setV_other t v hne, hregs y hy]
  · cases p <;> exact hparts _ hp

theorem Frame.withRandom (h : Frame regs parts s t) (hr : Part.random ∈ parts) (r : Byte) :
    Frame regs parts s (t.withRandom r) := by
  obtain ⟨hregs, hparts⟩ := h
  refine ⟨hregs, fun p hp => ?_⟩
  cases p with
  | random => exact absurd hr hp
  | _ => exact hparts _ hp

theorem Frame.useRandom (h : Frame regs parts s t) (hr : Part.random ∈ parts) : Frame regs parts s t.useRandom := by
  obtain ⟨hregs, hparts⟩ := h
  refine ⟨hregs, fun p hp => ?_⟩
  cases p with
  | random => exact absurd hr hp
  | _ => exact hparts _ hp

end

theorem frameAt_setV (s : State) (x : Reg) (v : Byte) : FrameAt [x] [] s (s.setV x v) :=
  ⟨(Frame.refl _ _ s).setV (List.mem_singleton.mpr rfl) v, rfl⟩

theorem frameAt_setResultThenFlag (s : State) (x : Reg) (v : Byte) (c : Bool) :
    FrameAt [x, VF] [] s (s.setResultThenFlag x v c) :=
  ⟨((Frame.refl _ _ s).setV (by simp) v).setV (by simp) (flagOf c), rfl⟩

/-! ### Instructions that write no flag -/

/-- The outcome of each instruction that only writes VX, its value given as a number. -/
theorem setV_outcome (s : State) (x : Reg) {v : Byte} {n : Nat} (hv : v.toNat = n) :
    ∃ t, Host.Outcome.next (s.setV x v) = (.next t : Host.Outcome State Fault Refusal) ∧ (t.getV x).toNat = n ∧
      FrameAt [x] [] s t :=
  ⟨_, rfl, by rw [State.getV_setV_same, hv], frameAt_setV s x v⟩

/-- Settles O20: each writes VX alone, the sum of bytes being that of the numbers modulo 256. -/
theorem immediateLoadAndAdd : Obligations.ImmediateLoadAndAdd :=
  fun x nn => ⟨wordOf_of_encode rfl rfl, wordOf_of_encode rfl rfl,
    fun s => ⟨⟨_, rfl, State.getV_setV_same s x nn, frameAt_setV s x nn⟩, setV_outcome s x (toNat_addBytes (s.getV x) nn)⟩⟩

/-- Settles O21: each writes VX alone, and the logic of bytes is that of their numbers. -/
theorem copyAndLogic : Obligations.CopyAndLogic := by
  intro x y
  refine ⟨wordOf_of_encode rfl (encXYN_eq_ofNat 8 x y (by decide)), wordOf_of_encode rfl (encXYN_eq_ofNat 8 x y (by decide)),
    wordOf_of_encode rfl (encXYN_eq_ofNat 8 x y (by decide)), wordOf_of_encode rfl (encXYN_eq_ofNat 8 x y (by decide)),
    fun s => ⟨?ld, ?or, ?and, ?xor⟩⟩
  case ld => exact ⟨_, rfl, State.getV_setV_same s x (s.getV y), frameAt_setV s x (s.getV y)⟩
  case or => exact setV_outcome s x (BitVec.toNat_or (s.getV x) (s.getV y))
  case and => exact setV_outcome s x (BitVec.toNat_and (s.getV x) (s.getV y))
  case xor => exact setV_outcome s x (BitVec.toNat_xor (s.getV x) (s.getV y))

/-- Settles O25: the byte drawn is the one on the input, and the draw changes only the model's own fields. -/
theorem rndMasksTheStepsByte : Obligations.RndMasksTheStepsByte := by
  refine fun x nn => ⟨wordOf_of_encode rfl rfl, fun s r => ⟨_, rfl, ?_, ?_, rfl⟩⟩
  · rw [State.getV_setV_same, State.randomByte_withRandom]
  · have hr : Part.random ∈ [Part.random] := List.mem_singleton.mpr rfl
    exact (((Frame.refl _ _ s).withRandom hr r).useRandom hr).setV (List.mem_singleton.mpr rfl) _

/-! ### Instructions that write a result and then the flag (R140) -/

/-- The result stands in VX where VX is not the flag's register. -/
theorem State.getV_setResultThenFlag_of_ne (s : State) {x : Reg} (v : Byte) (c : Bool) (hx : x ≠ VF) :
    (s.setResultThenFlag x v c).getV x = v := by
  rw [State.getV_setResultThenFlag, if_neg hx, if_pos rfl]

theorem flagOf_eq_ite {c : Bool} {P : Prop} [Decidable P] (h : c = true ↔ P) : flagOf c = if P then 1 else 0 :=
  if_congr h rfl rfl

theorem toNat_flagOf_droppedLow (v : Byte) : (flagOf (droppedLow v)).toNat = v.toNat % 2 := by
  rw [toNat_flagOf, if_congr (droppedLow_iff v) rfl rfl]
  split <;> omega

theorem toNat_flagOf_droppedHigh (v : Byte) : (flagOf (droppedHigh v)).toNat = v.toNat / 128 := by
  have := v.isLt
  rw [toNat_flagOf, if_congr (droppedHigh_iff v) rfl rfl]
  split <;> omega

/-- Settles O22: the sum of bytes is that of the numbers modulo 256, and `carryOut` says whether it reached 256. -/
theorem addSetsCarry : Obligations.AddSetsCarry := by
  refine fun x y => ⟨wordOf_of_encode rfl (encXYN_eq_ofNat 8 x y (by decide)),
    fun s => ⟨_, rfl, fun hx => ?_, ?_, frameAt_setResultThenFlag s x _ _⟩⟩
  · rw [State.getV_setResultThenFlag_of_ne s _ _ hx, toNat_addBytes]
  · rw [State.getV_setResultThenFlag_VF, flagOf_eq_ite (carryOut_iff _ _)]

/-- The outcome of both subtractions: `a - b` in VX, then NOT borrow in VF. -/
theorem subtract_outcome (s : State) (x : Reg) (a b : Byte) :
    ∃ t, Host.Outcome.next (s.setResultThenFlag x (a - b) (notBorrow a b)) =
        (.next t : Host.Outcome State Fault Refusal) ∧
      (x ≠ VF → ((t.getV x).toNat : Int) = ((a.toNat : Int) - b.toNat) % 256) ∧
      t.getV VF = (if b.toNat ≤ a.toNat then 1 else 0) ∧ FrameAt [x, VF] [] s t := by
  refine ⟨_, rfl, fun hx => ?_, ?_, frameAt_setResultThenFlag s x _ _⟩
  · rw [State.getV_setResultThenFlag_of_ne s _ _ hx, toNat_subBytes]
  · rw [State.getV_setResultThenFlag_VF, flagOf_eq_ite (notBorrow_iff a b)]

/-- Settles O23: `subtract_outcome` with the operands in the one order and in the other. -/
theorem subtractsSetNotBorrow : Obligations.SubtractsSetNotBorrow :=
  fun x y => ⟨wordOf_of_encode rfl (encXYN_eq_ofNat 8 x y (by decide)), wordOf_of_encode rfl (encXYN_eq_ofNat 8 x y (by decide)),
    fun s => ⟨subtract_outcome s x (s.getV x) (s.getV y), subtract_outcome s x (s.getV y) (s.getV x)⟩⟩

/-- The outcome of both shifts: the result in VX, then the dropped bit in VF, both given as numbers. -/
theorem shift_outcome (s : State) (x : Reg) {v : Byte} {c : Bool} {n f : Nat} (hv : v.toNat = n) (hc : (flagOf c).toNat = f) :
    ∃ t, Host.Outcome.next (s.setResultThenFlag x v c) = (.next t : Host.Outcome State Fault Refusal) ∧
      (x ≠ VF → (t.getV x).toNat = n) ∧ (t.getV VF).toNat = f ∧ FrameAt [x, VF] [] s t := by
  refine ⟨_, rfl, fun hx => ?_, ?_, frameAt_setResultThenFlag s x v c⟩
  · rw [State.getV_setResultThenFlag_of_ne s v c hx, hv]
  · rw [State.getV_setResultThenFlag_VF, hc]

/-- Settles O24: the words are those of `shiftsIgnoreTheYNibble`, and the shift of a byte is halving or doubling its number. -/
theorem shiftsSetTheDroppedBit : Obligations.ShiftsSetTheDroppedBit := by
  intro x y
  obtain ⟨hshr, hshl⟩ := shiftsIgnoreTheYNibble x y
  exact ⟨hshr, hshl, fun s =>
    ⟨shift_outcome s x (toNat_shiftRightByte (s.getV x)) (toNat_flagOf_droppedLow (s.getV x)),
      shift_outcome s x (toNat_shiftLeftByte (s.getV x)) (toNat_flagOf_droppedHigh (s.getV x))⟩⟩

end Sys2Proof.Machine

/-! SUPPORT. The index register and the memory it points at (spec/43_index_memory.md rules R170 to R177): the frames of a write to
I, of a store and of a block load, and the fault that the three memory instructions take past the end of memory. -/

namespace Sys2Proof.Machine

theorem encX_eq_ofNat (op : Nat) (x : Reg) (sub : Nat) : encX op x sub = BitVec.ofNat 16 (op * 4096 + sub + x.val * 256) :=
  congrArg (BitVec.ofNat 16) (Nat.add_right_comm _ _ _)

/-! ### Frames of index writes, stores and block loads -/

section
variable {regs : List Reg} {parts : List Part} {s t : State}

theorem Frame.setI (h : Frame regs parts s t) (hI : Part.I ∈ parts) (v : Word) : Frame regs parts s (t.setI v) := by
  obtain ⟨hregs, hparts⟩ := h
  refine ⟨hregs, fun p hp => ?_⟩
  cases p with
  | I => exact absurd hI hp
  | _ => exact hparts _ hp

theorem Frame.setMem (h : Frame regs parts s t) (hmem : Part.mem ∈ parts) (m : Memory) : Frame regs parts s (t.setMem m) := by
  obtain ⟨hregs, hparts⟩ := h
  refine ⟨hregs, fun p hp => ?_⟩
  cases p with
  | mem => exact absurd hmem hp
  | _ => exact hparts _ hp

theorem Frame.loadRegs {ks : List Reg} (h : Frame regs parts s t) (hks : ks ⊆ regs) (a : Nat) :
    Frame regs parts s (t.loadRegs ks a) := by
  induction ks generalizing t a with
  | nil => exact h
  | cons k rest ih =>
    obtain ⟨hk, hrest⟩ := List.cons_subset.mp hks
    exact ih (h.setV hk _) hrest (a + 1)

end

theorem frameAt_setI (s : State) (v : Word) : FrameAt [] [.I] s (s.setI v) :=
  ⟨(Frame.refl _ _ s).setI (List.mem_singleton.mpr rfl) v, rfl⟩

theorem frameAt_setMem (s : State) (m : Memory) : FrameAt [] [.mem] s (s.setMem m) :=
  ⟨(Frame.refl _ _ s).setMem (List.mem_singleton.mpr rfl) m, rfl⟩

theorem frameAt_loadRegs (s : State) (ks : List Reg) (a : Nat) : FrameAt ks [] s (s.loadRegs ks a) :=
  ⟨(Frame.refl _ _ s).loadRegs (List.Subset.refl ks) a, by rw [State.loadRegs_fields]⟩

/-! ### Faults past the end of memory (R174 to R176) -/

/-- The outcome of an instruction that raises a fault, its word given. -/
theorem tookFault_of_exec {i : Instr} {s : State} {c : FaultCause} {info : FaultInfo} {w : Word} (hw : encode i = w)
    (h : exec i s = raiseFault c info i s) : ∃ t, exec i s = .next t ∧ TookFault c w info s t := by
  obtain ⟨t, ht, hfault⟩ := raiseFault_tookFault c info i s
  exact ⟨t, h.trans ht, hw ▸ hfault⟩

/-! ### Block transfers (R175 to R177) -/

/-- A register of the block holds its byte after `FX65`'s loads. -/
theorem State.getV_loadBlock_of_le (s : State) {x k : Reg} (a : Nat) (hk : k.val ≤ x.val) :
    (s.loadRegs (blockRegs x) a).getV k = s.mem.read (a + k.val) := by
  rw [State.getV_loadBlock, if_pos hk]

/-- Settles O32: Vk is loaded from the byte that the store made Vk (`read_storeBlock`), at the same base. -/
theorem blockRoundTrip : Obligations.BlockRoundTrip := by
  intro x s hm hx
  have hb : s.base + (x.val + 1) ≤ 4096 := Nat.succ_le_succ hx
  refine ⟨_, execLdMemVx_of_le x hb, fun t' hI hmem => ?_⟩
  have hbase : t'.base = s.base := congrArg BitVec.toNat hI
  refine ⟨_, execLdVxMem_of_le x (hbase.symm ▸ hb), fun k hk => ?_⟩
  rw [State.getV_loadBlock_of_le t' _ hk, hbase, hmem (s.base + k.val) (by omega) (by omega)]
  exact read_storeBlock s x k hm hb hk

/-- Settles O30: the bytes written are those of `read_storeBlock`, and as many as the block has registers. -/
theorem blockStoreWritesV0ToVX : Obligations.BlockStoreWritesV0ToVX := by
  intro x
  have henc : encode (.ldMemVx x) = BitVec.ofNat 16 (0xF055 + x.val * 256) := encX_eq_ofNat 0xF x 0x55
  refine ⟨wordOf_of_encode rfl henc, fun s hm => ⟨fun hb => ?_, fun hgt => ?_⟩⟩
  · refine ⟨_, execLdMemVx_of_le x hb, fun k hk => read_storeBlock s x k hm hb hk, fun a ha => ?_, frameAt_setMem s _⟩
    exact Memory.read_writeBytes_outside _ _ _ (by simpa using ha)
  · exact tookFault_of_exec henc (execLdMemVx_of_gt x hgt)

/-- Settles O31: the loads are those of `blockRegs x`, which are V0 to VX. -/
theorem blockLoadReadsV0ToVX : Obligations.BlockLoadReadsV0ToVX := by
  intro x
  have henc : encode (.ldVxMem x) = BitVec.ofNat 16 (0xF065 + x.val * 256) := encX_eq_ofNat 0xF x 0x65
  refine ⟨wordOf_of_encode rfl henc, fun s => ⟨fun hb => ?_, fun hgt => ?_⟩⟩
  · exact ⟨_, execLdVxMem_of_le x hb, fun k hk => State.getV_loadBlock_of_le s s.base hk, frameAt_loadRegs s _ _,
      fun _ => mem_blockRegs⟩
  · exact tookFault_of_exec henc (execLdVxMem_of_gt x hgt)

/-! ### Decimal digits (R174) -/

/-- The bytes that `FX33` stores are the hundreds, the tens and the ones. -/
theorem toNat_read_storeDigits {m : Memory} {a : Nat} (hm : m.wf = true) (ha : a + 3 ≤ 4096) (v : Byte) (k : Nat) (hk : k < 3) :
    ((m.writeBytes a (decimalDigits v)).read (a + k)).toNat = [v.toNat / 100, v.toNat / 10 % 10, v.toNat % 10][k] := by
  rw [Memory.read_writeBytes_inside (bs := decimalDigits v) hm ha k hk]
  exact (List.getElem_map _).symm.trans (List.getElem_of_eq (decimalDigits_spell v) hk)

/-- Settles O29: the bytes written are those of `toNat_read_storeDigits`, three of them. -/
theorem bcdStoresTheDigits : Obligations.BcdStoresTheDigits := by
  intro x
  have henc : encode (.ldB x) = BitVec.ofNat 16 (0xF033 + x.val * 256) := encX_eq_ofNat 0xF x 0x33
  refine ⟨wordOf_of_encode rfl henc, fun s hm => ⟨fun hb => ?_, fun hgt => ?_⟩⟩
  · have hdigit := toNat_read_storeDigits hm hb (s.getV x)
    exact ⟨_, execLdB_of_le x hb, hdigit 0 (by decide), hdigit 1 (by decide), hdigit 2 (by decide),
      fun _ ha => Memory.read_writeBytes_outside _ _ _ ha, frameAt_setMem s _⟩
  · exact tookFault_of_exec henc (execLdB_of_gt x hgt)

/-! ### The index register (R171 to R173) -/

/-- The outcome of each instruction that only computes I, its value given as a number. -/
theorem setI_outcome (s : State) {v : Word} {n : Nat} (hv : v.toNat = n) :
    ∃ t, Host.Outcome.next (s.setI v) = (.next t : Host.Outcome State Fault Refusal) ∧ t.I.toNat = n ∧ FrameAt [] [.I] s t :=
  ⟨_, rfl, hv, frameAt_setI s v⟩

/-- The sum of I and a byte, as a number (R172). -/
theorem toNat_add_zextByte (i : Word) (v : Byte) : (i + zextByte v).toNat = (i.toNat + v.toNat) % 65536 := by
  rw [BitVec.toNat_add, toNat_zextByte]

/-- Settles O28: each writes I alone, the sum and the glyph's address being those of the numbers. -/
theorem indexRegisterWrites : Obligations.IndexRegisterWrites :=
  ⟨fun nnn hnnn => ⟨wordOf_of_encode (decide_eq_true hnnn) (encNNN_eq_ofNat 0xA hnnn),
      fun s => ⟨_, rfl, rfl, frameAt_setI s nnn⟩⟩,
    fun x => ⟨wordOf_of_encode rfl (encX_eq_ofNat 0xF x 0x1E), wordOf_of_encode rfl (encX_eq_ofNat 0xF x 0x29),
      fun s => ⟨setI_outcome s (toNat_add_zextByte s.I (s.getV x)), setI_outcome s (toNat_glyphAddress (s.getV x))⟩⟩⟩

end Sys2Proof.Machine

/-! SUPPORT. The display (spec/44_display.md rules R190 to R198): the frame of a new display, and what `DXYN` does in terms of the
cells that the sprite's set bits fall on. -/

namespace Sys2Proof.Machine

theorem Frame.setDisp {regs : List Reg} {parts : List Part} {s t : State} (h : Frame regs parts s t) (hdisp : Part.disp ∈ parts)
    (d : Display) : Frame regs parts s (t.setDisp d) := by
  obtain ⟨hregs, hparts⟩ := h
  refine ⟨hregs, fun p hp => ?_⟩
  cases p with
  | disp => exact absurd hdisp hp
  | _ => exact hparts _ hp

theorem frameAt_setDisp (s : State) (d : Display) : FrameAt [] [.disp] s (s.setDisp d) :=
  ⟨(Frame.refl _ _ s).setDisp (List.mem_singleton.mpr rfl) d, rfl⟩

theorem frameAt_setDisp_setFlag (s : State) (d : Display) (c : Bool) : FrameAt [VF] [.disp] s ((s.setDisp d).setFlag c) :=
  ⟨((Frame.refl _ _ s).setDisp (List.mem_singleton.mpr rfl) d).setV (List.mem_singleton.mpr rfl) (flagOf c), rfl⟩

/-- Settles O34: the display is `Display.clear`, whose cells are off, and no other part is written. -/
theorem clsTurnsEveryCellOff : Obligations.ClsTurnsEveryCellOff :=
  ⟨wordOf_of_encode rfl rfl, fun s => ⟨_, rfl, fun _ _ => Display.cell_clear _ _, frameAt_setDisp s _⟩⟩

/-! ### The word of `DXYN` and its fault past the end of memory (R196) -/

theorem encode_drw_eq_ofNat (x y : Reg) {n : Nat} (hn : n < 16) :
    encode (.drw x y n) = BitVec.ofNat 16 (0xD000 + x.val * 256 + y.val * 16 + n) :=
  (encXYN_eq_ofNat 0xD x y hn).trans (congrArg (BitVec.ofNat 16) (by omega))

/-- Settles O36: past the end of memory the instruction raises a fault and does nothing else. -/
theorem drawPastMemoryFaults : Obligations.DrawPastMemoryFaults :=
  fun x y _ _ hn hpos hgt => tookFault_of_exec (encode_drw_eq_ofNat x y hn) (execDrw_of_gt x y hpos hgt)

/-! ### The cells a sprite covers (R192, R193) -/

/-- A sprite covers a cell exactly when the rows read from memory hit it. -/
theorem spriteHits_readBytes_iff (s : State) (vx vy : Byte) (n u v : Nat) :
    spriteHits vx.toNat vy.toNat 0 (s.mem.readBytes s.base n) u v = true ↔ spriteCovers s vx vy n u v := by
  simp only [spriteHits_iff, Memory.getElem_readBytes, Memory.length_readBytes, Nat.zero_add, exists_prop]
  rfl

/-- Both axes wrap, so that a covered cell is one of the grid. -/
theorem lt_of_spriteCovers {s : State} {vx vy : Byte} {n u v : Nat} (h : spriteCovers s vx vy n u v) : u < 64 ∧ v < 32 := by
  obtain ⟨j, c, -, -, -, rfl, rfl⟩ := h
  exact ⟨Nat.mod_lt _ (by decide), Nat.mod_lt _ (by decide)⟩

/-- Which cells a sprite covers depends on I and the bytes of memory alone. -/
theorem spriteCovers_congr {s t : State} (hI : t.I = s.I) (hmem : ∀ a, t.mem.read a = s.mem.read a) (vx vy : Byte) (n u v : Nat) :
    spriteCovers t vx vy n u v ↔ spriteCovers s vx vy n u v := by
  simp only [spriteCovers, State.base, hI, hmem]

/-! ### Drawing (R194 to R197) -/

theorem State.getV_setFlag_VF (s : State) (c : Bool) : (s.setFlag c).getV VF = flagOf c := State.getV_setV_same s VF (flagOf c)

/-- A sprite has fewer rows than the display, so that no two of them fall on the same one (R192). -/
theorem length_readBytes_le (s : State) {n : Nat} (hn : n < 16) : (s.mem.readBytes s.base n).length ≤ 32 := by
  rw [Memory.length_readBytes]
  omega

/-- A draw inverts the cells it covers. -/
theorem drawSprite_at (s : State) (vx vy : Byte) {n : Nat} (hn : n < 16) {u : Nat} (v : Nat) (hu : u < 64) :
    (drawSprite vx vy (s.mem.readBytes s.base n) s.disp).1.at (u + 64 * v) =
      (s.disp.at (u + 64 * v) ^^ spriteHits vx.toNat vy.toNat 0 (s.mem.readBytes s.base n) u v) := by
  rw [Display.at_eq_cell _ v hu, Display.at_eq_cell _ v hu, (drawSprite_spec vx vy _ (length_readBytes_le s hn) s.disp).1]

/-- A draw notes a collision exactly when a cell it covers was on. -/
theorem drawSprite_collides_iff (s : State) (vx vy : Byte) {n : Nat} (hn : n < 16) :
    (drawSprite vx vy (s.mem.readBytes s.base n) s.disp).2 = true ↔
      ∃ u v, spriteCovers s vx vy n u v ∧ s.disp.at (u + 64 * v) = true := by
  rw [(drawSprite_spec vx vy _ (length_readBytes_le s hn) s.disp).2]
  refine exists_congr fun u => exists_congr fun v => ?_
  rw [spriteHits_readBytes_iff]
  exact and_congr_right fun hc => by rw [Display.at_eq_cell _ v (lt_of_spriteCovers hc).1]

/-- Settles O35: the cells are those of `drawSprite_at`, the flag is that of `drawSprite_collides_iff`. -/
theorem drawInvertsTheCellsItCovers : Obligations.DrawInvertsTheCellsItCovers := by
  intro x y n hn
  refine ⟨wordOf_of_encode (decide_eq_true hn) (encode_drw_eq_ofNat x y hn), fun s hb => ?_⟩
  have hflag := drawSprite_collides_iff s (s.getV x) (s.getV y) hn
  refine ⟨_, execDrw_of_le x y hb, fun u v hu _ => ⟨fun hc => ?_, fun hc => ?_⟩, fun hon => ?_, fun hoff => ?_,
    frameAt_setDisp_setFlag s _ _⟩
  · rw [State.disp_setFlag, State.disp_setDisp, drawSprite_at s _ _ hn v hu, (spriteHits_readBytes_iff s _ _ n u v).mpr hc,
      Bool.xor_true]
  · rw [State.disp_setFlag, State.disp_setDisp, drawSprite_at s _ _ hn v hu,
      Bool.of_not_eq_true (mt (spriteHits_readBytes_iff s _ _ n u v).mp hc), Bool.xor_false]
  · rw [State.getV_setFlag_VF, hflag.mpr hon]; rfl
  · have hnone : ¬ ∃ u v, spriteCovers s (s.getV x) (s.getV y) n u v ∧ s.disp.at (u + 64 * v) = true := by
      rintro ⟨u, v, hc, hon⟩
      exact Bool.false_ne_true ((hoff u v hc).symm.trans hon)
    rw [State.getV_setFlag_VF, Bool.of_not_eq_true (mt hflag.mp hnone)]; rfl

/-- Settles O37, from what one draw does: the second covers the same cells, so it inverts back those the first inverted, and the
cells it finds on are those that were off. -/
theorem doubleDrawRestoresTheDisplay : Obligations.DoubleDrawRestoresTheDisplay := by
  intro x y n s hn hb
  have draw := (drawInvertsTheCellsItCovers x y n hn).2
  obtain ⟨t, ht, hcells, -, -, -⟩ := draw s hb
  refine ⟨t, ht, fun t' hdisp hI hmem hx hy => ?_⟩
  have hbase : t'.base = s.base := congrArg BitVec.toNat hI
  obtain ⟨u, hu, hcells', hon, hoff, -⟩ := draw t' (hbase.symm ▸ hb)
  simp only [spriteCovers_congr hI hmem, hx, hy, hdisp] at hcells' hon hoff
  refine ⟨u, hu, Display.ext_cells fun c r hc hr => ?_, fun hVF => ?_, ?_⟩
  · rw [← Display.at_eq_cell _ r hc, ← Display.at_eq_cell _ r hc]
    by_cases hcov : spriteCovers s (s.getV x) (s.getV y) n c r
    · rw [(hcells' c r hc hr).1 hcov, (hcells c r hc hr).1 hcov, Bool.not_not]
    · rw [(hcells' c r hc hr).2 hcov, (hcells c r hc hr).2 hcov]
  · by_contra hnone
    refine absurd (hVF.symm.trans (hoff fun c r hcov => ?_)) (by decide)
    obtain ⟨hc, hr⟩ := lt_of_spriteCovers hcov
    have hwas : s.disp.at (c + 64 * r) = true := Bool.of_not_eq_false fun h => hnone ⟨c, r, hcov, h⟩
    rw [(hcells c r hc hr).1 hcov, hwas, Bool.not_true]
  · rintro ⟨c, r, hcov, hwas⟩
    obtain ⟨hc, hr⟩ := lt_of_spriteCovers hcov
    exact hon ⟨c, r, hcov, by rw [(hcells c r hc hr).1 hcov, hwas, Bool.not_false]⟩

end Sys2Proof.Machine

/-! SUPPORT. Keys and timers (spec/45_keys_timers.md rules R210 to R216): the frames of the timer writes, the key skips in terms of the
key that VX numbers, and one tick of the timers as numbers, from which the replies of a row of ticks follow by induction. -/

namespace Sys2Proof.Machine

/-! ### Frames of timer writes -/

section
variable {regs : List Reg} {parts : List Part} {s t : State}

theorem Frame.setDT (h : Frame regs parts s t) (hDT : Part.DT ∈ parts) (v : Byte) : Frame regs parts s (t.setDT v) := by
  obtain ⟨hregs, hparts⟩ := h
  refine ⟨hregs, fun p hp => ?_⟩
  cases p with
  | DT => exact absurd hDT hp
  | _ => exact hparts _ hp

theorem Frame.setST (h : Frame regs parts s t) (hST : Part.ST ∈ parts) (v : Byte) : Frame regs parts s (t.setST v) := by
  obtain ⟨hregs, hparts⟩ := h
  refine ⟨hregs, fun p hp => ?_⟩
  cases p with
  | ST => exact absurd hST hp
  | _ => exact hparts _ hp

end

theorem frameAt_setDT (s : State) (v : Byte) : FrameAt [] [.DT] s (s.setDT v) :=
  ⟨(Frame.refl _ _ s).setDT (List.mem_singleton.mpr rfl) v, rfl⟩

theorem frameAt_setST (s : State) (v : Byte) : FrameAt [] [.ST] s (s.setST v) :=
  ⟨(Frame.refl _ _ s).setST (List.mem_singleton.mpr rfl) v, rfl⟩

/-! ### A row of ticks (R215, R245) -/

theorem session_cons_replies (c : HostCall) (cs : List HostCall) (s : State) :
    (session (c :: cs) s).2 = (transact c s).2 :: (session cs (transact c s).1).2 := rfl

theorem toNat_tickDown (v : Byte) : (tickDown v).toNat = v.toNat - 1 := by
  unfold tickDown
  split <;> bv_omega

theorem toNat_ST_tickPort (s : State) : (tickPort s).1.ST.toNat = s.ST.toNat - 1 := toNat_tickDown s.ST

/-- A tick's tone is that ST was exactly 1 (R245). -/
theorem tickPort_reply (s : State) : (tickPort s).2 = .tone (decide (1 = s.ST.toNat)) := by
  refine congrArg Reply.tone (Bool.eq_iff_iff.mpr ?_)
  rw [beq_iff_eq, decide_eq_true_iff, eq_comm, ← BitVec.toNat_inj]
  rfl

/-- Settles O58, by induction on the number of ticks from any state: after the first tick ST is one less, so that the tick numbered
ST is numbered one less among those that follow. -/
theorem toneComesOnceAtTheLastTick : Obligations.ToneComesOnceAtTheLastTick := by
  intro s n
  induction n generalizing s with
  | zero => exact ⟨rfl, rfl⟩
  | succ n ih =>
    obtain ⟨hreplies, hST⟩ := ih (tickPort s).1
    rw [toNat_ST_tickPort] at hreplies hST
    rw [List.replicate_succ, session_cons_replies, session_cons_state]
    constructor
    · have hlater : ∀ k, (k + 1 = s.ST.toNat - 1) ↔ (k + 1 + 1 = s.ST.toNat) := fun k => by omega
      rw [List.range_succ_eq_map, List.map_cons, List.map_map]
      refine congrArg₂ List.cons (tickPort_reply s) (hreplies.trans (List.map_congr_left fun k _ => ?_))
      exact congrArg Reply.tone (decide_eq_decide.mpr (hlater k))
    · exact hST.trans (by omega)

/-! ### The key skips (R210, R211) -/

/-- A value that is a key's number numbers that key (R216). -/
theorem keyIndex_of_toNat_eq {v : Byte} {k : Fin 16} (h : v.toNat = k.val) : keyIndex v = some k :=
  (keyIndex_of_lt (h ▸ k.isLt)).trans (congrArg some (Fin.ext h))

section
variable {x : Reg} {s : State} {k : Fin 16}

theorem exec_skp_of_key (hk : (s.getV x).toNat = k.val) : exec (.skp x) s = .next (s.skipIf (s.keyDown k)) := by
  rw [exec, execSkp, keyIndex_of_toNat_eq hk]

theorem exec_sknp_of_key (hk : (s.getV x).toNat = k.val) : exec (.sknp x) s = .next (s.skipIf (!s.keyDown k)) := by
  rw [exec, execSknp, keyIndex_of_toNat_eq hk]

end

/-- Settles O38: where VX numbers a key both are skips on its state, and from 16 up both raise the fault. -/
theorem keySkips : Obligations.KeySkips := by
  intro x
  have hskp : encode (.skp x) = BitVec.ofNat 16 (0xE09E + x.val * 256) := encX_eq_ofNat 0xE x 0x9E
  have hsknp : encode (.sknp x) = BitVec.ofNat 16 (0xE0A1 + x.val * 256) := encX_eq_ofNat 0xE x 0xA1
  refine ⟨wordOf_of_encode rfl hskp, wordOf_of_encode rfl hsknp, fun s => ⟨fun k hk => ?_, fun hge => ?_⟩⟩
  · rw [exec_skp_of_key hk, exec_sknp_of_key hk]
    exact ⟨skipIf_outcome s Iff.rfl, skipIf_outcome s (Iff.of_eq (Bool.not_eq_true' _))⟩
  · exact ⟨tookFault_of_exec hskp (execSkp_of_ge hge), tookFault_of_exec hsknp (execSknp_of_ge hge)⟩

/-! ### Timer transfers and the key wait (R212 to R215) -/

/-- Settles O39: each writes the one register or timer its frame leaves out. -/
theorem timerReadsAndWrites : Obligations.TimerReadsAndWrites :=
  fun x => ⟨wordOf_of_encode rfl (encX_eq_ofNat 0xF x 0x07), wordOf_of_encode rfl (encX_eq_ofNat 0xF x 0x15),
    wordOf_of_encode rfl (encX_eq_ofNat 0xF x 0x18),
    fun s => ⟨⟨_, rfl, State.getV_setV_same s x s.DT, frameAt_setV s x s.DT⟩,
      ⟨_, rfl, rfl, frameAt_setDT s (s.getV x)⟩, ⟨_, rfl, rfl, frameAt_setST s (s.getV x)⟩⟩⟩

/-- A key's number fits a register. -/
theorem toNat_keyByte (k : Fin 16) : (BitVec.ofNat 8 k.val).toNat = k.val :=
  (BitVec.toNat_ofNat _ _).trans (Nat.mod_eq_of_lt (k.isLt.trans (by decide)))

/-- Settles O40: the key scan finds the lowest key down (`lowestKeyDown_eq_some_iff`), and with none down only the pc is written. -/
theorem keyWaitStoresTheLowestKey : Obligations.KeyWaitStoresTheLowestKey := by
  refine fun x => ⟨wordOf_of_encode rfl (encX_eq_ofNat 0xF x 0x0A), fun s => ⟨fun k hdown hlower => ?_, fun hup => ?_⟩⟩
  · have hfound : s.lowestKeyDown = some k := (State.lowestKeyDown_eq_some_iff s k).mpr ⟨hdown, hlower⟩
    refine ⟨_, execLdVxK_of_down x hfound, ?_, frameAt_setV s x _⟩
    rw [State.getV_setV_same, toNat_keyByte]
  · exact ⟨_, execLdVxK_of_up x hup, rfl, (Frame.refl _ _ s).setPC _⟩

end Sys2Proof.Machine

/-! SUPPORT. Exceptions and the host's calls (spec/60_exceptions.md rules R231 to R235, R244, R245, R252, R254 to R256): an execution
whose own check fails is the raising of its fault, the latch over each call, and a session that goes on with more calls. -/

namespace Sys2Proof.Machine

/-! ### What a step latches (R231 to R234) -/

/-- Settles O9: `step_latches_faultOfStep`, and the codes as the table of causes lists them. -/
theorem stepLatchesExactlyTheSpecifiedFault : Obligations.StepLatchesExactlyTheSpecifiedFault :=
  ⟨fun _ => step_latches_faultOfStep, rfl, rfl, rfl, rfl, rfl, rfl⟩

/-- An instruction whose own check fails does nothing but raise its fault: the check stands before every write (R234). -/
theorem exec_of_ownFault {i : Instr} {s : State} {c : FaultCause} {info : FaultInfo} (h : ownFault i s = some (c, info)) :
    exec i s = raiseFault c info i s := by
  cases i <;> simp only [ownFault, Option.ite_none_right_eq_some, Option.some.injEq, Prod.mk.injEq, reduceCtorEq] at h
  all_goals obtain ⟨hcheck, rfl, rfl⟩ := h
  case call nnn => exact execCall_of_full nnn hcheck
  case ret => exact execRet_of_empty hcheck
  case drw x y n =>
    obtain ⟨hrows, hpast⟩ := hcheck
    exact execDrw_of_gt x y hrows hpast
  case ldB x => exact execLdB_of_gt x hcheck
  case ldMemVx x => exact execLdMemVx_of_gt x hcheck
  case ldVxMem x => exact execLdVxMem_of_gt x hcheck
  case skp x => exact execSkp_of_ge hcheck
  case sknp x => exact execSknp_of_ge hcheck

/-- A step whose next state holds a record has only taken that fault, at the pc: in fetch, in decode, or in the instruction's own
check, since an execution that passes its check leaves the latch open. -/
theorem step_eq_takeFault {s t : State} (h : step s = .next t) (hfault : t.fault ≠ none) :
    ∃ c op info, t = s.takeFault c s.pc op info := by
  obtain ⟨hopen, -⟩ := step_cases h
  obtain htaken | ⟨i, -, hx⟩ := step_takeFault_or_exec h
  · exact htaken
  · cases hown : ownFault i s.fetched with
    | none =>
      have hkept := exec_fault hx
      rw [hown] at hkept
      exact absurd (hkept.trans hopen) hfault
    | some f =>
      rw [exec_of_ownFault hown, raiseFault, State.pc_fetched_sub] at hx
      exact ⟨_, _, _, (Host.Outcome.next.inj hx).symm⟩

/-- Settles O10: a fault taken at the pc changes the latch alone, and the latch holds what the tables give. -/
theorem faultedStepKeepsEverythingElse : Obligations.FaultedStepKeepsEverythingElse := by
  intro s t hopen h hfault
  obtain ⟨u, hu, hlatch⟩ := step_latches_faultOfStep hopen
  obtain rfl : u = t := Host.Outcome.next.inj (hu.symm.trans h)
  obtain ⟨c, op, info, rfl⟩ := step_eq_takeFault h hfault
  exact ⟨frameAt_takeFault s c op info, _, rfl, hlatch.symm, rfl⟩

/-! ### The image (R252) -/

theorem loadPort_of_le {bytes : List Byte} (s : State) (h : 0x200 + bytes.length ≤ 4096) :
    loadPort bytes s = (s.setMem (s.mem.writeBytes 0x200 bytes), .ok) := if_pos ((inBounds_iff _ _).mpr h)

theorem loadPort_of_gt {bytes : List Byte} (s : State) (h : 4096 < 0x200 + bytes.length) :
    loadPort bytes s = (s, .rejectLoadSize) := if_neg (Bool.eq_false_iff.mp ((inBounds_eq_false_iff _ _).mpr h))

/-- Settles O55: where the image fits it is written from 0x200 up, and memory is the one part written. -/
theorem loadCopiesTheImage : Obligations.LoadCopiesTheImage := by
  refine fun bytes s hs => ⟨fun hfits => ⟨_, loadPort_of_le s hfits, ?_, ?_, frameAt_setMem s _⟩, loadPort_of_gt s⟩
  · exact Memory.read_writeBytes_inside hs hfits
  · exact fun a => Memory.read_writeBytes_outside s.mem 0x200 bytes

/-! ### Ticks (R244, R245) -/

/-- Settles O57: each timer is ticked as a number, and the two timers are all that is written. -/
theorem tickCountsBothTimersDown : Obligations.TickCountsBothTimersDown := by
  intro s
  refine ⟨_, Prod.ext rfl ?_, toNat_tickDown s.DT, toNat_tickDown s.ST, ?_, rfl⟩
  · rw [tickPort_reply, decide_eq_decide.mpr eq_comm]
  · exact ((Frame.refl _ _ s).setDT (by decide) _).setST (by decide) _

/-! ### Keys (R254) -/

theorem keypressPort_of_key (k : Fin 16) (pressed : Bool) (s : State) :
    keypressPort k.val pressed s = (s.setKey k pressed, .ok) := dif_pos k.isLt

theorem keypressPort_of_ge {index : Nat} (pressed : Bool) (s : State) (h : 16 ≤ index) :
    keypressPort index pressed s = (s, .rejectKeyIndex) := dif_neg (Nat.not_lt.mpr h)

theorem Frame.setKey {regs : List Reg} {parts : List Part} {s t : State} (h : Frame regs parts s t) (hkeys : Part.keys ∈ parts)
    (k : Fin 16) (down : Bool) : Frame regs parts s (t.setKey k down) := by
  obtain ⟨hregs, hparts⟩ := h
  refine ⟨hregs, fun p hp => ?_⟩
  cases p with
  | keys => exact absurd hkeys hp
  | _ => exact hparts _ hp

/-- Settles O59: an index below 16 is a key's, and a write to one key is read back from that key alone (`keyDown_setKey`). -/
theorem keypressSetsOneKey : Obligations.KeypressSetsOneKey := by
  refine fun index pressed s => ⟨?_, keypressPort_of_ge pressed s⟩
  rintro k rfl
  refine ⟨_, keypressPort_of_key k pressed s, ?_, fun j hj => ?_, ?_, rfl⟩
  · rw [State.keyDown_setKey, if_pos rfl]
  · rw [State.keyDown_setKey, if_neg hj]
  · exact (Frame.refl _ _ s).setKey (List.mem_singleton.mpr rfl) k pressed

/-! ### A latched block (R235, R272) -/

theorem stepPort_of_latched {s : State} {r : FaultRecord} (b : Byte) (h : s.fault = some r) :
    stepPort b s = (s, .faulted r) := by
  unfold stepPort
  rw [step_of_latched (s := s.withRandom b) h]

/-- No call but `reset` opens the latch. -/
theorem transact_keeps_latched {c : HostCall} {s : State} {r : FaultRecord} (hc : c ≠ .reset) (h : s.fault = some r) :
    (transact c s).1.fault = some r := by
  cases c with
  | load bytes =>
    rw [transact, loadPort]
    split <;> exact h
  | step b =>
    rw [transact, stepPort_of_latched b h]
    exact h
  | keypress index pressed =>
    rw [transact, keypressPort]
    split <;> exact h
  | tickTimers | displaySnapshot => exact h
  | reset => exact absurd rfl hc

/-- Settles O11: no step follows a record, and of the host's calls `reset` alone opens the latch. -/
theorem latchedBlockDoesNotExecute : Obligations.LatchedBlockDoesNotExecute :=
  fun _ _ h => ⟨step_of_latched h, fun b => stepPort_of_latched b h, fun _ hc => transact_keeps_latched hc h, rfl⟩

/-! ### Sessions (R255, R256) -/

/-- A session that goes on after its calls: the later calls start from the state the earlier ones left (R63). -/
theorem session_append (cs ds : List HostCall) (s : State) :
    session (cs ++ ds) s = ((session ds (session cs s).1).1, (session cs s).2 ++ (session ds (session cs s).1).2) := by
  induction cs generalizing s with
  | nil => rfl
  | cons c cs ih =>
    apply Prod.ext
    · rw [List.cons_append, session_cons_state, ih, session_cons_state]
    · rw [List.cons_append, session_cons_replies, ih, session_cons_replies, session_cons_state, List.cons_append]

/-- Settles O60: after the calls come one reset, which looks at no state, or one snapshot, which gives the state back. -/
theorem resetForgetsTheSession : Obligations.ResetForgetsTheSession := by
  intro cs s
  rw [session_append, session_append]
  exact ⟨rfl, rfl, rfl⟩

end Sys2Proof.Machine

/-! SUPPORT. Reset and hazards (spec/70_reset_and_hazards.md rules R270, R271, R279, R285): the value of every component after reset,
and the two states a block stays in by itself, the key wait and the jump to its own address. -/

namespace Sys2Proof.Machine

/-! ### States that a step gives back (R279, R285) -/

/-- A state that one step gives back is given back by any number of steps. -/
theorem run_of_step_eq_self {M : Host.Core} {s : M.State} (h : M.step s = .next s) (k : Nat) : M.run k s = .next s := by
  induction k with
  | zero => rfl
  | succ k ih => rw [Host.Core.run, h]; exact ih

/-- The fetch writes the pc alone, so the instruction's address written back undoes it. -/
theorem State.setPC_fetched_pc (s : State) : s.fetched.setPC s.pc = s := rfl

/-- An instruction that only takes the pc back to its own address holds the block in its state. -/
theorem run_of_exec_setPC_pc {s : State} {i : Instr} (hopen : s.fault = none) (hr : s.runs i)
    (hx : exec i s.fetched = .next (s.fetched.setPC s.pc)) (k : Nat) : Host.Core.run Sys2Proof.core k s = .next s := by
  have hstep : step s = .next s := by rw [step_of_runs hopen hr, hx, State.setPC_fetched_pc]
  exact run_of_step_eq_self (M := Sys2Proof.core) hstep k

/-- Settles O41: with every key up `FX0A` writes the pc less 2, which is its own address. -/
theorem keyWaitNeverTimesOut : Obligations.KeyWaitNeverTimesOut := by
  intro s x k hopen hr hup
  have hx : exec (.ldVxK x) s.fetched = .next (s.fetched.setPC (s.fetched.pc - 2)) := execLdVxK_of_up x hup
  rw [State.pc_fetched_sub] at hx
  exact run_of_exec_setPC_pc hopen hr hx k

/-- The word at the pc of a terminal state is that of `JP` to the pc. -/
theorem State.runs_jp_of_terminal {s : State} (h : s.terminal) : s.runs (.jp s.pc) := by
  obtain ⟨-, hpc, hword⟩ := h
  have hlt : s.pc.toNat < 4096 := Nat.lt_succ_of_le hpc
  rw [State.fetchWord_eq, Option.ite_none_right_eq_some] at hword
  obtain ⟨hfetch, hword⟩ := hword
  exact ⟨hfetch, wordOf_of_encode (decide_eq_true hlt) ((encNNN_eq_ofNat 1 hlt).trans (Option.some.inj hword).symm)⟩

/-- Settles O53: the jump writes its own address to the pc. -/
theorem terminalStateStays : Obligations.TerminalStateStays := by
  intro s k h
  have hopen : s.fault = none := h.1
  exact run_of_exec_setPC_pc hopen (State.runs_jp_of_terminal h) rfl k

/-! ### Reset (R270, R271) -/

/-- Settles O44: the memory of reset lists nothing, its pc is 0x200 and its stack entries are 0 (`reset_inv`). -/
theorem resetMeetsTheInvariants : Obligations.ResetMeetsTheInvariants := reset_inv

/-- Above the font table the reset byte of every address is 0 (R31). -/
theorem Memory.unlisted_of_ge {a : Nat} (h : 80 ≤ a) : Memory.unlisted a = 0 := List.getD_eq_default font 0 h

/-- Every cell of `Display.clear` is off, read by its linear index. -/
@[simp] theorem Display.at_clear (k : Nat) : Display.clear.at k = false := Display.cell_clear _ _

@[simp] theorem State.getV_reset (x : Reg) : State.reset.getV x = 0 := Vector.getElem_replicate x.isLt

@[simp] theorem State.keyDown_reset (k : Fin 16) : State.reset.keyDown k = false := Vector.getElem_replicate k.isLt

/-- Settles O54: memory lists nothing, so each address reads as its reset byte, and each other component is given by its value. -/
theorem resetValues : Obligations.ResetValues := by
  refine ⟨fun _ => rfl, State.getV_reset, rfl, rfl, ?stack, rfl, rfl, ?font, ?zeros, ?cells, State.keyDown_reset, rfl, rfl, rfl⟩
  case stack => exact fun k => Vector.getElem_replicate k.isLt
  case font => exact fun a => Memory.read_nil a.val
  case zeros => exact fun a ha => (Memory.read_nil a).trans (Memory.unlisted_of_ge ha)
  case cells => exact fun k _ => Display.at_clear k

end Sys2Proof.Machine

/-! SUPPORT. `CXNN` with no byte on the random input (log entry 2): the model's own free value. -/

namespace Sys2Proof.Machine

/-- With no byte on the input, the step's byte is the free value of the draws made so far (log entry 2). -/
theorem State.randomByte_of_none {s : State} (h : s.randomIn = none) : s.randomByte = Config.randomByte s.draws :=
  congrArg (Option.getD · (Config.randomByte s.draws)) h

/-- `CXFF` masks nothing (R155), so with no byte on the input it writes the free value itself. -/
theorem exec_rnd_allOnes_of_none (x : Reg) {s : State} (h : s.randomIn = none) :
    exec (.rnd x 0xFF) s = .next (s.useRandom.setV x (Config.randomByte s.draws)) := by
  have hexec : exec (.rnd x 0xFF) s = .next (s.useRandom.setV x (s.randomByte &&& BitVec.allOnes 8)) := rfl
  rw [hexec, BitVec.and_allOnes, State.randomByte_of_none h]

/-- Settles O26: the first draw leaves the input empty and the counter one higher, so that the second takes the free value after
it, and the second write is to another register. -/
theorem rndDrawsAFreshFreeByte : Obligations.RndDrawsAFreshFreeByte := by
  intro x y s hnone hxy
  refine ⟨_, _, exec_rnd_allOnes_of_none x hnone, exec_rnd_allOnes_of_none y rfl, ?first, ?second, rfl, rfl, ?frame, rfl⟩
  case first => rw [State.getV_setV_other _ _ hxy, State.getV_useRandom, State.getV_setV_same]
  case second => rw [State.getV_setV_same, State.draws_setV, State.draws_useRandom]
  case frame =>
    have hr : Part.random ∈ [Part.random] := List.mem_singleton.mpr rfl
    exact ((((Frame.refl _ _ s).useRandom hr).setV (by simp) _).useRandom hr).setV (by simp) _

end Sys2Proof.Machine
